-- ==== Sys2Proof/Word.lean ====
section
/-! DEFINITION. The machine word and the constants of 00_scope.md rule R6 that are no parameter. -/

namespace Sys2Proof

/-- `XLEN` (R6): the width of a register, of the pc and of an instruction. -/
abbrev xlen : Nat := 32

/-- `NREGS` (R6, R10): how many general registers there are. -/
abbrev nregs : Nat := 32

/-- A word is 32 bits, bit 31 the most significant (R7). Addition on words is modulo 2^32 (R7). -/
abbrev Word := BitVec 32

/-- A register index: the 5-bit field by which alone the hardware names a register (R10). -/
abbrev RegIdx := BitVec 5

/-- A shift amount: the 5-bit `shamt` field (R46, R96). -/
abbrev Shamt := BitVec 5

/-- The raw 16-bit immediate field (R47); how it is read as a number depends on the instruction (R52 to R54). -/
abbrev Imm16 := BitVec 16

end Sys2Proof
end

