-- ==== Sys2Proof/Syntax.lean ====
section
/-! DEFINITION. The instructions: one constructor per row of spec/opcode_table.json, in the table's order.
Operands stand in the order of the encoding's fields, high bits first (R46, R47). The fields a row ignores (R57:
`shamt` of add, `rs` and `rt` of the shifts) are kept as operands, so that a word is recovered from its instruction
(log 11); no meaning reads them. Words of no row are outcomes of `decode`, not instructions (R107, R108, log 10). -/

namespace Sys2Proof

/-- The closed set of eight (R2, R55). -/
inductive Instr where
  /-- The zero word: the halt sentinel (R82, R83). -/
  | nop
  /-- R90. `shamt` is ignored. -/
  | add (rs rt rd : RegIdx) (shamt : Shamt)
  /-- R97. `rs` is ignored, `rt` is decoded but never read. -/
  | sll (rs rt rd : RegIdx) (shamt : Shamt)
  /-- R98. `rs` is ignored, `rt` is decoded but never read. -/
  | srl (rs rt rd : RegIdx) (shamt : Shamt)
  /-- R91. `rt` is the destination. -/
  | addi (rs rt : RegIdx) (imm : Imm16)
  /-- R95. `rt` is the destination. -/
  | andi (rs rt : RegIdx) (imm : Imm16)
  /-- R100. `imm` is the displacement in slots. -/
  | beq (rs rt : RegIdx) (imm : Imm16)
  /-- R101. `imm` is the displacement in slots. -/
  | bne (rs rt : RegIdx) (imm : Imm16)
  deriving DecidableEq, Repr

end Sys2Proof
end

