-- ==== Sys2Proof/WellFormed.lean ====
section
/-! DEFINITION. Which terms of `Instr` are instructions of the hardware. Every field has its encoding's width by its
type, so the one check left is the shadowed encoding (R59): the sll whose fields are all zero is the zero word,
which halts and never executes as a shift. -/

namespace Sys2Proof

/-- R59: the all-zero sll is no instruction; every other term is one. -/
def Instr.wellFormed : Instr → Bool
  | .sll rs rt rd shamt => !(rs == 0 && rt == 0 && rd == 0 && shamt == 0)
  | .nop | .add .. | .srl .. | .addi .. | .andi .. | .beq .. | .bne .. => true

end Sys2Proof
end

