-- ==== Sys2Proof/Decode.lean ====
section
/-! DEFINITION. Field extraction (R46 to R49), the decode of a fetched word (R55 to R58) and the encoder
(R50, R65 to R72), written from the same field tables. -/

namespace Sys2Proof

/-- `Unpack(word, offset, width)` (R49): the unsigned field of `width` bits whose least significant bit is `offset`. -/
def unpack (w : Word) (offset width : Nat) : BitVec width := w.extractLsb' offset width

/-- Bits 31-26 (R46, R47). -/
def opOf (w : Word) : BitVec 6 := unpack w 26 6
/-- Bits 25-21 (R46, R47). -/
def rsOf (w : Word) : RegIdx := unpack w 21 5
/-- Bits 20-16 (R46, R47). -/
def rtOf (w : Word) : RegIdx := unpack w 16 5
/-- Bits 15-11 (R46). -/
def rdOf (w : Word) : RegIdx := unpack w 11 5
/-- Bits 10-6 (R46). -/
def shamtOf (w : Word) : Shamt := unpack w 6 5
/-- Bits 5-0 (R46). -/
def functOf (w : Word) : BitVec 6 := unpack w 0 6
/-- Bits 15-0 (R47). -/
def immOf (w : Word) : Imm16 := unpack w 0 16

/-- What a fetched word decodes to (R56, R88): an instruction of the table (HALT is `nop`), or one of the two
unrecognised outcomes, named by its format. -/
inductive Decoded where
  | instr (i : Instr)
  /-- `UNRECOGNISED_R` (R107). -/
  | unrecognisedR
  /-- `UNRECOGNISED_I` (R108). -/
  | unrecognisedI
  deriving DecidableEq, Repr

/-- The register-format half of R56: `op = 0`, the selector is `funct`. -/
def decodeRegisterFormat (w : Word) : Decoded :=
  if functOf w = 0x20#6 then .instr (.add (rsOf w) (rtOf w) (rdOf w) (shamtOf w))
  else if functOf w = 0x00#6 then .instr (.sll (rsOf w) (rtOf w) (rdOf w) (shamtOf w))
  else if functOf w = 0x02#6 then .instr (.srl (rsOf w) (rtOf w) (rdOf w) (shamtOf w))
  else .unrecognisedR

/-- The immediate-format half of R56: the selector is `op`. -/
def decodeImmediateFormat (w : Word) : Decoded :=
  if opOf w = 0x08#6 then .instr (.addi (rsOf w) (rtOf w) (immOf w))
  else if opOf w = 0x0C#6 then .instr (.andi (rsOf w) (rtOf w) (immOf w))
  else if opOf w = 0x04#6 then .instr (.beq (rsOf w) (rtOf w) (immOf w))
  else if opOf w = 0x05#6 then .instr (.bne (rsOf w) (rtOf w) (immOf w))
  else .unrecognisedI

/-- R56: the zero test first (the whole word, R82), then the format by the top 6 bits (R48). -/
def decode (w : Word) : Decoded :=
  if w = 0#32 then .instr .nop
  else if opOf w = 0#6 then decodeRegisterFormat w
  else decodeImmediateFormat w

/-- A register-format word from its fields (R46). -/
def registerWord (rs rt rd : RegIdx) (shamt : Shamt) (funct : BitVec 6) : Word :=
  0#6 ++ rs ++ rt ++ rd ++ shamt ++ funct

/-- An immediate-format word from its fields (R47). -/
def immediateWord (op : BitVec 6) (rs rt : RegIdx) (imm : Imm16) : Word :=
  op ++ rs ++ rt ++ imm

/-- The word of an instruction, from the opcode map (R55) and the field tables (R46, R47). -/
def encode : Instr → Word
  | .nop => 0#32
  | .add rs rt rd shamt => registerWord rs rt rd shamt 0x20#6
  | .sll rs rt rd shamt => registerWord rs rt rd shamt 0x00#6
  | .srl rs rt rd shamt => registerWord rs rt rd shamt 0x02#6
  | .addi rs rt imm => immediateWord 0x08#6 rs rt imm
  | .andi rs rt imm => immediateWord 0x0C#6 rs rt imm
  | .beq rs rt imm => immediateWord 0x04#6 rs rt imm
  | .bne rs rt imm => immediateWord 0x05#6 rs rt imm

/-- The instruction the decoder reads from the bits `w` of a table row of `nbits` bits (every row has 32; bits above
`nbits` are 0); none where the word is unrecognised. -/
def decodeTableWord (nbits w : Nat) : Option Instr :=
  match decode (BitVec.ofNat 32 (w % 2 ^ nbits)) with
  | .instr i => some i
  | .unrecognisedR => none
  | .unrecognisedI => none

end Sys2Proof
end

