-- ==== Sys2Proof/Config.lean ====
section
/-! DEFINITION. The implementation parameters of 00_scope.md rule R6. They never change during a run; the State
holds them as plain data, so that a statement about every state is one about every value of them (log 1).
This hardware has no free value (93_implementation_defined.md: nothing is treated as "any value"; R136). -/

namespace Sys2Proof

/-- `SEXT_BOUNDARY` (R6, R52, D4): whether the 16-bit field 0x8000 reads as -32768 or as +32768. -/
inductive SextBoundary where
  /-- The normative reading: a field >= 0x8000 is negative. -/
  | contract
  /-- What the original program is reported to do: only a field > 0x8000 is negative. -/
  | reference
  deriving DecidableEq, Repr

/-- `MAX_STEPS` (R6, D19): a natural number or none. It belongs to the harness that drives the core (R137,
`HarnessReports`), and so it is no field of `Config`. -/
abbrev MaxSteps := Option Nat

/-- The default of `MAX_STEPS` (R6): none, so the harness cuts no run short. -/
def MaxSteps.default : MaxSteps := none

/-- The parameters of R6 that belong to the core; `MAX_STEPS`, the harness's, is `MaxSteps`. -/
structure Config where
  /-- `BASE_TEXT_ADDR`, a multiple of 4 (D1). -/
  baseTextAddr : Word
  /-- `IMEM_SLOTS`, from 1 to 2^30 (D2). -/
  imemSlots : Nat
  /-- `SEXT_BOUNDARY` (D4). -/
  sextBoundary : SextBoundary
  deriving DecidableEq, Repr

/-- The constraints R6 puts on the parameters. -/
abbrev Config.wf (c : Config) : Prop :=
  c.baseTextAddr.toNat % 4 = 0 ∧ 1 ≤ c.imemSlots ∧ c.imemSlots ≤ 2 ^ 30

/-- The parameters of `State.reset`. The base is the spec's default (PRESUMED: the spec takes it from general
knowledge, D1, log 2); the boundary is the spec's default (D4, log 4); the spec gives the capacity no value, so
2^20 slots is a DESIGN CHOICE (log 3). No rule and no meaning depends on these three values. -/
def Config.default : Config where
  baseTextAddr := 0x00400000#32
  imemSlots := 1048576
  sextBoundary := .contract

end Sys2Proof
end

