-- ==== Sys2Proof/Machine/State.lean ====
section
/-! DEFINITION. The state of the core (10_state.md: "exactly four things": x, pc, run_state, imem) and its value
after reset; the reasons a step can stop. Plain data throughout. -/

namespace Sys2Proof.Machine

/-- `run_state` (R15): the only status the core has. -/
inductive RunState where
  /-- The core executes steps. -/
  | running
  /-- The core has fetched a zero word; it executes nothing more. -/
  | halted
  /-- The core was asked to fetch from outside instruction memory (the spec's own state, D3). -/
  | faulted
  deriving DecidableEq, Repr

/-- Instruction memory (R16): a map from slot to 32-bit word, with no byte view (R32, D13, log 7). Canonical form:
slots strictly rising, no entry holding the zero word, which is what an unlisted slot reads as (R18, R44, log 8). -/
abbrev Imem := List (Nat × Word)

/-- The machine's state. -/
structure State where
  /-- The parameters of R6: the model's own field, which no step writes (log 1). -/
  cfg : Config
  /-- `x[0]` to `x[31]` (R10); `x[0]` is an ordinary register (R11). -/
  regs : Vector Word 32
  /-- The program counter (R13). -/
  pc : Word
  /-- The run state (R15). -/
  runState : RunState
  /-- Instruction memory (R16). -/
  imem : Imem
  deriving DecidableEq, Repr

/-- The reasons `FetchWord` can fail. There is one (R110: the hardware itself raises no exception). -/
inductive Fault where
  /-- `FetchOutOfRange(a)` (R112, D3): `fetchWord` raises it for an address outside the instruction window, and
  `raiseFault` takes it as the spec describes: a NEXT state whose run state is Faulted. Safe: the model stops
  where the original program would read past its array (log 5). -/
  | fetchOutOfRange (a : Word)
  deriving DecidableEq, Repr

/-- The reasons a step can be refused. -/
inductive Refusal where
  /-- An instruction with no meaning in the model; no arm of `exec` answers it. Safe. -/
  | notModelled (mnemonic : String)
  deriving DecidableEq, Repr

/-- The state right after reset (R18, R125), under the default parameters, with nothing loaded (log 15). -/
def State.reset : State where
  cfg := Config.default
  regs := Vector.replicate 32 0#32
  pc := Config.default.baseTextAddr
  runState := .running
  imem := []

end Sys2Proof.Machine
end

