-- ==== Sys2Proof/Machine/Ops.lean ====
section
/-! DEFINITION. The named operations over registers, pc, run state and instruction memory; the fetch primitive
`FetchWord` (R33); taking the one model-level fault (R112). There is no return from it: only reset leaves Faulted
(R86, R116), which is the host's move `hostReset` in Machine/HostPort.lean. -/

namespace Sys2Proof.Machine

/-- What every meaning answers. -/
abbrev StepResult := Host.Outcome State Fault Refusal

/-- Read of `x[i]` (R8, R10); `x[0]` is read like any other (R11). -/
def readReg (s : State) (i : RegIdx) : Word := s.regs[i.toNat]'i.isLt

/-- Write of `x[i]` (R8, R10); a write to `x[0]` stores the value (R11). -/
def writeReg (s : State) (i : RegIdx) (v : Word) : State := { s with regs := s.regs.set i.toNat v i.isLt }

/-- Write of the pc (R8). -/
def setPc (s : State) (a : Word) : State := { s with pc := a }

/-- Write of the run state (R8). -/
def setRunState (s : State) (r : RunState) : State := { s with runState := r }

/-- The default advance: `pc <- pc + 4` modulo 2^32 (R14, R84). -/
def advance (s : State) : State := setPc s (s.pc + 4#32)

/-- The end of every step that writes a register: `x[i] <- v`, `pc <- pc + 4` (R21: both take effect together). -/
def writeAndAdvance (s : State) (i : RegIdx) (v : Word) : StepResult := .next (advance (writeReg s i v))

/-- The word in a slot; a slot that nothing wrote holds zero (R18, R44, log 8). -/
def imemRead : Imem → Nat → Word
  | [], _ => 0#32
  | (k, v) :: rest, slot => if k = slot then v else imemRead rest slot

/-- Put a word into a slot, keeping the canonical form. Only the host writes instruction memory (R16, R42). -/
def imemWrite : Imem → Nat → Word → Imem
  | [], slot, w => if w = 0#32 then [] else [(slot, w)]
  | (k, v) :: rest, slot, w =>
    if slot < k then (if w = 0#32 then (k, v) :: rest else (slot, w) :: (k, v) :: rest)
    else if slot = k then (if w = 0#32 then rest else (slot, w) :: rest)
    else (k, v) :: imemWrite rest slot w

/-- Words `ws` in the slots from `slot` on, every later slot zero (R44). -/
def imemOfWords (slot : Nat) : List Word → Imem
  | [] => []
  | w :: ws => if w = 0#32 then imemOfWords (slot + 1) ws else (slot, w) :: imemOfWords (slot + 1) ws

/-- Canonical form from `lo` on: slots at or above `lo`, strictly rising, no zero word. -/
def imemCanonicalFrom (lo : Nat) : Imem → Bool
  | [] => true
  | (k, v) :: rest => decide (lo ≤ k) && decide (v ≠ 0#32) && imemCanonicalFrom (k + 1) rest

/-- The canonical form of instruction memory. -/
def Imem.wf (m : Imem) : Bool := imemCanonicalFrom 0 m

/-- The offset of an address in the window: `(a - BASE_TEXT_ADDR) mod 2^32` (R31, R33). -/
def windowOffset (c : Config) (a : Word) : Nat := (a - c.baseTextAddr).toNat

/-- The instruction window (R31). -/
def inWindow (c : Config) (a : Word) : Bool := decide (windowOffset c a < 4 * c.imemSlots)

/-- The slot of an address: `(a - BASE_TEXT_ADDR) / 4` (R31). The division is exact in every state a run reaches
(R34); where it is not, it rounds down as the formula is written (DEDUCED, log 9). -/
def slotOf (c : Config) (a : Word) : Nat := windowOffset c a / 4

/-- The byte address of slot `i` (R31). -/
def slotAddr (c : Config) (i : Nat) : Word := c.baseTextAddr + BitVec.ofNat 32 (4 * i)

/-- `FetchWord(a)` (R33): the word of the slot, or the fault `FetchOutOfRange(a)`. -/
def fetchWord (s : State) (a : Word) : Except Fault Word :=
  if inWindow s.cfg a then .ok (imemRead s.imem (slotOf s.cfg a)) else .error (.fetchOutOfRange a)

/-- `raise FetchOutOfRange(a)` (R8, R112): `run_state <- Faulted`, no other state changes, the step ends. The pc is
left at `a`, which identifies the bad address. -/
def raiseFault (f : Fault) (s : State) : StepResult :=
  match f with
  | .fetchOutOfRange _ => .next (setRunState s .faulted)

/-- What a step does once the core is Halted or Faulted: nothing at all (R85, R86: absorbing; log 6). -/
def idle (s : State) : StepResult := .next s

end Sys2Proof.Machine
end

