-- ==== Sys2Proof/Machine/Operands.lean ====
section
/-! DEFINITION. The readings of the immediate field (R52 to R54) and the branch target (R103). `shamt` and the
register fields are used as they are (R51). -/

namespace Sys2Proof.Machine

/-- Whether a 16-bit field reads as a non-negative number, under either value of `SEXT_BOUNDARY` (R7, R52). -/
def immNonNegative (b : SextBoundary) (v : Imm16) : Bool :=
  match b with
  | .contract => decide (v.toNat < 0x8000)
  | .reference => decide (v.toNat ≤ 0x8000)

/-- `sext_int(v)` (R7, R52). -/
def sextInt (b : SextBoundary) (v : Imm16) : Int :=
  if immNonNegative b v then (v.toNat : Int) else (v.toNat : Int) - 65536

/-- `sext_32(v) = sext_int(v) mod 2^32` (R52). -/
def sext32 (b : SextBoundary) (v : Imm16) : Word := BitVec.ofInt 32 (sextInt b v)

/-- `zext_32(v)` (R7, R53). -/
def zext32 (v : Imm16) : Word := v.zeroExtend 32

/-- The branch target (R103): `(pc + 4 + 4 * disp) mod 2^32` with `disp = sext_int(imm16)`, in slots. -/
def branchTarget (b : SextBoundary) (pc : Word) (imm : Imm16) : Word :=
  BitVec.ofInt 32 ((pc.toNat : Int) + 4 + 4 * sextInt b imm)

end Sys2Proof.Machine
end

