-- ==== Sys2Proof/Machine/Arithmetic.lean ====
section
/-! DEFINITION. add and addi (41_arithmetic.md): wrap-around, no overflow detection (R92, R93). -/

namespace Sys2Proof.Machine

/-- R90: `x[rd] <- x[rs] + x[rt]`; `shamt` is ignored (R57). -/
def execAdd (rs rt rd : RegIdx) (_shamt : Shamt) (s : State) : StepResult :=
  writeAndAdvance s rd (readReg s rs + readReg s rt)

/-- R91: `x[rt] <- x[rs] + sext_32(imm16)`. -/
def execAddi (rs rt : RegIdx) (imm : Imm16) (s : State) : StepResult :=
  writeAndAdvance s rt (readReg s rs + sext32 s.cfg.sextBoundary imm)

end Sys2Proof.Machine
end

