-- ==== Sys2Proof/Machine/Flags.lean ====
section
/-! DEFINITION. The hardware has no flags and no condition codes (R17, R93): no operation keeps a carry, overflow,
zero or sign bit. The one condition it computes is the equality of two registers, used within the step of a branch
and kept nowhere. -/

namespace Sys2Proof.Machine

/-- `x[rs] = x[rt]`, on all 32 bits (R100, R101). -/
def regsEqual (s : State) (rs rt : RegIdx) : Bool := decide (readReg s rs = readReg s rt)

end Sys2Proof.Machine
end

