-- ==== Sys2Proof/Machine/Branch.lean ====
section
/-! DEFINITION. beq and bne (43_branch.md): no delay slot (R102), one redirect of the pc within the branch's own
step (R103); a target outside the window is no error of the branch (R104). -/

namespace Sys2Proof.Machine

/-- The end of a branch's step: the target if taken, else the default advance (R100, R101, R103). -/
def branchIf (taken : Bool) (imm : Imm16) (s : State) : StepResult :=
  .next (if taken then setPc s (branchTarget s.cfg.sextBoundary s.pc imm) else advance s)

/-- R100: taken if `x[rs] = x[rt]`. -/
def execBeq (rs rt : RegIdx) (imm : Imm16) (s : State) : StepResult :=
  branchIf (regsEqual s rs rt) imm s

/-- R101: taken if `x[rs] != x[rt]`. -/
def execBne (rs rt : RegIdx) (imm : Imm16) (s : State) : StepResult :=
  branchIf (!regsEqual s rs rt) imm s

end Sys2Proof.Machine
end

