-- ==== Sys2Proof/Machine/Halt.lean ====
section
/-! DEFINITION. The halt word, which is `nop` (R82, R83). -/

namespace Sys2Proof.Machine

/-- R82, R83: `run_state <- Halted`. No register changes, and the pc stays at the zero word (the spec's decision D8,
log 13). -/
def execNop (s : State) : StepResult := .next (setRunState s .halted)

end Sys2Proof.Machine
end

