-- ==== Sys2Proof/Machine/Logical.lean ====
section
/-! DEFINITION. andi, sll and srl (42_logic_shift.md). -/

namespace Sys2Proof.Machine

/-- R95: `x[rt] <- x[rs] & zext_32(imm16)`. -/
def execAndi (rs rt : RegIdx) (imm : Imm16) (s : State) : StepResult :=
  writeAndAdvance s rt (readReg s rs &&& zext32 imm)

/-- R97: `x[rd] <- x[rd] << shamt`: the destination's own value; `rs` and `rt` are never read. -/
def execSll (_rs _rt rd : RegIdx) (shamt : Shamt) (s : State) : StepResult :=
  writeAndAdvance s rd (readReg s rd <<< shamt.toNat)

/-- R98: `x[rd] <- x[rd] >> shamt`, zero fill: the destination's own value; `rs` and `rt` are never read. -/
def execSrl (_rs _rt rd : RegIdx) (shamt : Shamt) (s : State) : StepResult :=
  writeAndAdvance s rd (readReg s rd >>> shamt.toNat)

end Sys2Proof.Machine
end

