-- ==== Sys2Proof/Machine/Unrecognised.lean ====
section
/-! DEFINITION. Words that are no row of the opcode table (44_unrecognised.md): silent no-ops that advance the pc, no
fault and no halt (R58, R109; the spec's decision D5, log 10). -/

namespace Sys2Proof.Machine

/-- R107: `pc <- pc + 4` and nothing else. -/
def execUnrecognisedR (s : State) : StepResult := .next (advance s)

/-- R108: `pc <- pc + 4` and nothing else. -/
def execUnrecognisedI (s : State) : StepResult := .next (advance s)

end Sys2Proof.Machine
end

