-- ==== Sys2Proof/Machine/Step.lean ====
section
/-! DEFINITION. One step of the core (R80): fetch, then halt, fault, or execute with the pc update. -/

namespace Sys2Proof.Machine

/-- Execute what a fetched word decodes to (R56, R88). -/
def execDecoded (d : Decoded) (s : State) : StepResult :=
  match d with
  | .instr i => exec i s
  | .unrecognisedR => execUnrecognisedR s
  | .unrecognisedI => execUnrecognisedI s

/-- R80, with the order of checks of R114: the window, then the zero word and the rest of the decode. A core that is
Halted or Faulted does nothing (R85, R86, log 6). -/
def step (s : State) : Host.Outcome State Fault Refusal :=
  match s.runState with
  | .running =>
    match fetchWord s s.pc with
    | .error f => raiseFault f s
    | .ok w => execDecoded (decode w) s
  | .halted => idle s
  | .faulted => idle s

/-- `s` with the instruction word `w` where the next step fetches (log 15): in the slot of the pc, the core Running;
if the pc is outside the window it is brought back to the base address. -/
def State.withFetchWord (s : State) (nbits w : Nat) : State :=
  let a := if inWindow s.cfg s.pc then s.pc else s.cfg.baseTextAddr
  { s with pc := a, runState := .running,
           imem := imemWrite s.imem (slotOf s.cfg a) (BitVec.ofNat 32 (w % 2 ^ nbits)) }

end Sys2Proof.Machine
end

