-- ==== Sys2Proof/Machine/Assembler.lean ====
section
/-! DEFINITION. The assembler (30_encoding.md section 7): the software stage outside the hardware that fixes the bit
patterns the core decodes (R3). It is no part of the state or of the step; it packs fields on its own (R50, R65 to
R72), so that it can be held against the decoder. Source text is lists of characters. What the grammar leaves open
is decided in log 18. -/

namespace Sys2Proof.Machine

/-- A whitespace-delimited piece of a source line. -/
abbrev Token := List Char

/-- The error kinds (R73). Software only: the core can raise none of them (R111). -/
inductive AsmError where
  | parseError
  | unknownOpcode
  | unknownRegister
  | immediateOutOfRange
  | shiftOutOfRange
  | undefinedLabel
  deriving DecidableEq, Repr

/-- The numbering of the register names (R61, D15, U10): MIPS order, or the order in which the source lists them. -/
inductive RegNumbering where
  | mips
  | listed
  deriving DecidableEq, Repr

/-- What the source leaves to the assembler: the bound on a line's length (R60, N7) and the numbering (U10). -/
structure AsmParams where
  lineBound : Nat
  numbering : RegNumbering
  deriving DecidableEq, Repr

/-- The eight mnemonics (R62). -/
inductive Mnemonic where
  | nop | add | addi | andi | beq | bne | srl | sll
  deriving DecidableEq, Repr

/-- A line of one of the two forms of R60: `label: opcode args` or `opcode args`. -/
structure SourceLine where
  label : Option Token
  opcode : Token
  args : List Token
  deriving DecidableEq, Repr

/-- The position of the first entry equal to `x`. -/
def firstIndex {α : Type} [DecidableEq α] (x : α) : List α → Option Nat
  | [] => none
  | y :: ys => if y = x then some 0 else (firstIndex x ys).map (· + 1)

/-! Register names (R12, R61). -/

/-- `$` and a two-letter name. -/
def dollar (a b : Char) : Token := ['$', a, b]

/-- `$p0`, `$p1` and so on, one for each digit. -/
def numbered (p : Char) (digits : List Char) : List Token := digits.map (dollar p)

/-- The 32 names in index order (R61's table; for `listed`, the other order R61 describes). -/
def regNames (n : RegNumbering) : List Token :=
  [['$', 'z', 'e', 'r', 'o'], dollar 'a' 't'] ++ numbered 'v' ['0', '1'] ++ numbered 'a' ['0', '1', '2', '3'] ++
  numbered 't' ['0', '1', '2', '3', '4', '5', '6', '7'] ++
  (match n with
    | .mips => numbered 's' ['0', '1', '2', '3', '4', '5', '6', '7'] ++ numbered 't' ['8', '9']
    | .listed => numbered 't' ['8', '9'] ++ numbered 's' ['0', '1', '2', '3', '4', '5', '6', '7']) ++
  numbered 'k' ['0', '1'] ++ [dollar 'g' 'p', dollar 's' 'p', dollar 'f' 'p', dollar 'r' 'a']

/-- `resolve(name)` (R61): exact match, no aliasing, no numeric fallback. -/
def regIndex (n : RegNumbering) (t : Token) : Option RegIdx := (firstIndex t (regNames n)).map (BitVec.ofNat 5)

/-! Lines (R60, R62). -/

/-- The fixed 8-entry table (R62), in its order. -/
def mnemonicTable : List (Token × Mnemonic) :=
  [(['n', 'o', 'p'], .nop), (['a', 'd', 'd'], .add), (['a', 'd', 'd', 'i'], .addi), (['a', 'n', 'd', 'i'], .andi),
   (['b', 'e', 'q'], .beq), (['b', 'n', 'e'], .bne), (['s', 'r', 'l'], .srl), (['s', 'l', 'l'], .sll)]

/-- Look an opcode up in the table (R62). -/
def mnemonicOf (t : Token) : Option Mnemonic := mnemonicTable.lookup t

/-- How many operands each mnemonic takes (R62). -/
def arity : Mnemonic → Nat
  | .nop => 0
  | .add | .addi | .andi | .beq | .bne | .srl | .sll => 3

/-- Blank, tab, carriage return and, by D16, the comma separate tokens (R60, C5). -/
def isSeparator (c : Char) : Bool := c = ' ' || c = '\t' || c = '\r' || c = ','

/-- The token read so far, if there is one (`acc` holds its characters backwards). -/
def flushToken (acc : List Char) : List Token := if acc = [] then [] else [acc.reverse]

/-- The tokens of a line; a colon is a token of its own (R60). -/
def tokensFrom : List Char → List Char → List Token
  | [], acc => flushToken acc
  | c :: cs, acc =>
    if c = ':' then flushToken acc ++ [[':']] ++ tokensFrom cs []
    else if isSeparator c then flushToken acc ++ tokensFrom cs []
    else tokensFrom cs (c :: acc)

/-- The two recognised grammars (R60): a colon after the first token introduces the label, no other colon may stand,
and there are at most three operand tokens. A comment or a directive has no grammar of its own: a line such as `# x` or
`.text` is read as an opcode with operands, and so is an `UnknownOpcode` (R62), which ends the assembly (DESIGN CHOICE,
log 18: note N10 calls a comment line a `ParseError`). -/
def parseTokens (ts : List Token) : Option SourceLine :=
  let line : Option SourceLine :=
    match ts with
    | [] => none
    | first :: [':'] :: opcode :: args => some ⟨some first, opcode, args⟩
    | opcode :: args => some ⟨none, opcode, args⟩
  line.filter fun l => decide (l.args.length ≤ 3) && (l.label.toList ++ l.opcode :: l.args).all (fun t => !(t == [':']))

/-- Parse a line (R60): none is a `ParseError`. -/
def parseLine (p : AsmParams) (line : List Char) : Option SourceLine :=
  if line.length ≤ p.lineBound then parseTokens (tokensFrom line []) else none

/-! Operands (R61, R63, R64). -/

/-- A decimal digit's value. -/
def digitValue (c : Char) : Option Nat :=
  firstIndex c ['0', '1', '2', '3', '4', '5', '6', '7', '8', '9']

/-- Decimal digits, most significant first, after the value `acc`. -/
def digitsFrom (acc : Nat) : List Char → Option Nat
  | [] => some acc
  | c :: cs => (digitValue c).bind fun d => digitsFrom (10 * acc + d) cs

/-- A decimal literal (R64): an optional `-` and at least one digit. -/
def parseDecimal (t : Token) : Option Int :=
  match t with
  | [] => none
  | c :: cs =>
    if c = '-' then (if cs = [] then none else (digitsFrom 0 cs).map fun n => -(n : Int))
    else (digitsFrom 0 (c :: cs)).map fun n => (n : Int)

/-- `resolve(slot, label)` (R63): the index of the first line with that label, minus (slot + 1). -/
def resolveLabel (labels : List (Option Token)) (slot : Nat) (label : Token) : Option Int :=
  if label = [] then none
  else (firstIndex (some label) labels).map fun (k : Nat) => (k : Int) - ((slot : Int) + 1)

/-! Packing (R50). -/

/-- OR a field into a word; a field of the word that is still zero becomes `v`, the other bits are untouched. -/
def setField {k : Nat} (w : Word) (v : BitVec k) (offset : Nat) : Word := w ||| (v.zeroExtend 32 <<< offset)

/-- Whether a value fits a signed or an unsigned field of `width` bits (R50). -/
def fitsField (signed : Bool) (value : Int) (width : Nat) : Bool :=
  if signed then decide (-(2 ^ (width - 1) : Int) ≤ value) && decide (value < 2 ^ (width - 1))
  else decide (0 ≤ value) && decide (value < 2 ^ width)

/-- `pack(word, value, width, offset)` (R50), whose `OutOfRange` is reported as the kind `e` (R73, C9). -/
def pack (signed : Bool) (e : AsmError) (w : Word) (value : Int) (width offset : Nat) : Except AsmError Word :=
  if fitsField signed value width then .ok (setField w (BitVec.ofInt width value) offset) else .error e

/-- A missing value is the error `e`. -/
def orError {α : Type} (e : AsmError) : Option α → Except AsmError α
  | some a => .ok a
  | none => .error e

/-- Two registers and an immediate (R67, R68). -/
def encodeImmediate (n : RegNumbering) (base : Word) (a1 a2 a3 : Token) : Except AsmError Word := do
  let rt ← orError .unknownRegister (regIndex n a1)
  let rs ← orError .unknownRegister (regIndex n a2)
  let imm ← orError .parseError (parseDecimal a3)
  pack true .immediateOutOfRange (setField (setField base rt 16) rs 21) imm 16 0

/-- Two registers and a label (R69, R70). -/
def encodeBranch (n : RegNumbering) (labels : List (Option Token)) (slot : Nat) (base : Word) (a1 a2 a3 : Token) :
    Except AsmError Word := do
  let rs ← orError .unknownRegister (regIndex n a1)
  let rt ← orError .unknownRegister (regIndex n a2)
  let disp ← orError .undefinedLabel (resolveLabel labels slot a3)
  pack true .immediateOutOfRange (setField (setField base rs 21) rt 16) disp 16 0

/-- Two registers and a shift amount (R71, R72). -/
def encodeShift (n : RegNumbering) (base : Word) (a1 a2 a3 : Token) : Except AsmError Word := do
  let rd ← orError .unknownRegister (regIndex n a1)
  let rt ← orError .unknownRegister (regIndex n a2)
  let amount ← orError .parseError (parseDecimal a3)
  pack false .shiftOutOfRange (setField (setField base rd 11) rt 16) amount 5 6

/-- Three registers (R66). -/
def encodeRegisters (n : RegNumbering) (base : Word) (a1 a2 a3 : Token) : Except AsmError Word := do
  let rd ← orError .unknownRegister (regIndex n a1)
  let rs ← orError .unknownRegister (regIndex n a2)
  let rt ← orError .unknownRegister (regIndex n a3)
  .ok (setField (setField (setField base rd 11) rs 21) rt 16)

/-- The word a mnemonic's encoding starts from: its opcode and funct, every operand field zero (R65 to R72). -/
def baseWord : Mnemonic → Word
  | .nop | .sll => 0x00000000#32
  | .add => 0x00000020#32
  | .srl => 0x00000002#32
  | .addi => 0x20000000#32
  | .andi => 0x30000000#32
  | .beq => 0x10000000#32
  | .bne => 0x14000000#32

/-- The three-operand encodings (R66 to R72); `nop` takes none, so three operands are no line of it. -/
def encodeThree (n : RegNumbering) (labels : List (Option Token)) (slot : Nat) (m : Mnemonic) (a1 a2 a3 : Token) :
    Except AsmError Word :=
  match m with
  | .nop => .error .parseError
  | .add => encodeRegisters n (baseWord m) a1 a2 a3
  | .addi | .andi => encodeImmediate n (baseWord m) a1 a2 a3
  | .beq | .bne => encodeBranch n labels slot (baseWord m) a1 a2 a3
  | .srl | .sll => encodeShift n (baseWord m) a1 a2 a3

/-- The word of a parsed line in slot `slot` (R62, R65 to R72). A wrong operand count is a `ParseError` (N20, log 18). -/
def encodeLine (n : RegNumbering) (labels : List (Option Token)) (slot : Nat) (l : SourceLine) : Except AsmError Word :=
  match mnemonicOf l.opcode with
  | none => .error .unknownOpcode
  | some m =>
    if l.args.length = arity m then
      match l.args with
      | [a1, a2, a3] => encodeThree n labels slot m a1 a2 a3
      | _ => .ok (baseWord m)
    else .error .parseError

/-! Whole programs (R60, R73, R74). -/

/-- The label of each line, if it has one. A line that is itself a `ParseError` carries none, so a branch to it elsewhere
is an `UndefinedLabel` (DESIGN CHOICE: R60 and R63 are silent, log 18). -/
def labelsOf (p : AsmParams) (lines : List (List Char)) : List (Option Token) :=
  lines.map fun l => (parseLine p l).bind SourceLine.label

/-- The word of a line, or its error. -/
def assembleLine (p : AsmParams) (labels : List (Option Token)) (slot : Nat) (line : List Char) :
    Except AsmError Word :=
  match parseLine p line with
  | none => .error .parseError
  | some l => encodeLine p.numbering labels slot l

/-- Every line's result from slot `slot` on; an unknown opcode ends the assembly there (R73). -/
def assembleFrom (p : AsmParams) (labels : List (Option Token)) (slot : Nat) :
    List (List Char) → List (Except AsmError Word)
  | [] => []
  | line :: rest =>
    match assembleLine p labels slot line with
    | .error .unknownOpcode => [.error .unknownOpcode]
    | r => r :: assembleFrom p labels (slot + 1) rest

/-- The words, if no line failed: assembly is all-or-nothing (R73). -/
def allWords : List (Except AsmError Word) → Option (List Word)
  | [] => some []
  | .ok w :: rest => (allWords rest).map (w :: ·)
  | .error _ :: _ => none

/-- Each line's result. -/
def assembleEach (p : AsmParams) (lines : List (List Char)) : List (Except AsmError Word) :=
  assembleFrom p (labelsOf p lines) 0 lines

/-- Assemble a program (R73): the words of slots 0, 1, ..., or nothing. -/
def assemble (p : AsmParams) (lines : List (List Char)) : Option (List Word) := allWords (assembleEach p lines)

/-- The attempted encoding that a diagnostic identifies (R73): which mnemonic's encoding it was, the word it starts from
and the operands it was to pack. That these three make it up is a DESIGN CHOICE (log 18). -/
structure Attempt where
  mnemonic : Mnemonic
  base : Word
  args : List Token
  deriving DecidableEq, Repr

/-- The encoding a line attempts: none for a line that does not parse or whose opcode is not in the table. -/
def attemptOf (p : AsmParams) (line : List Char) : Option Attempt := do
  let l ← parseLine p line
  let m ← mnemonicOf l.opcode
  some { mnemonic := m, base := baseWord m, args := l.args }

/-- What the diagnostics collaborator is shown of one line: a word and its address (R74), or a failure's line number,
kind and attempted encoding (R73, R74). Lines are numbered from 0 (R63). -/
inductive LineReport where
  | word (w : Word) (address : Word)
  | failure (line : Nat) (e : AsmError) (attempted : Option Attempt)
  deriving DecidableEq, Repr

/-- The report of the line in slot `slot`; word `k` is at `BASE_TEXT_ADDR + 4*k` (R74). -/
def reportLine (c : Config) (p : AsmParams) (slot : Nat) (line : List Char) : Except AsmError Word → LineReport
  | .ok w => .word w (slotAddr c slot)
  | .error e => .failure slot e (attemptOf p line)

/-- The reports of the lines from `slot` on that have a result; an unknown opcode's line has the last one (R73). -/
def reportsFrom (c : Config) (p : AsmParams) (slot : Nat) :
    List (List Char) → List (Except AsmError Word) → List LineReport
  | line :: lines, r :: rs => reportLine c p slot line r :: reportsFrom c p (slot + 1) lines rs
  | _, _ => []

/-- The assembler's output to the diagnostics collaborator (R74). -/
def assemblerReports (c : Config) (p : AsmParams) (lines : List (List Char)) : List LineReport :=
  reportsFrom c p 0 lines (assembleEach p lines)

end Sys2Proof.Machine
end

