-- ==== Sys2Proof/Machine/HostPort.lean ====
section
/-! DEFINITION. The core's boundary (10_state.md section 8, 70_reset_and_hazards.md): the outputs the host can see, its
moves before a run, the read-back after it, and the test harness's step bound. None of these is a move of `step`: the
host takes no step during a run (R133, R136). What the spec leaves open here is decided in log 16 (the moves) and in
log 21 (the fetch signals). -/

namespace Sys2Proof.Machine

/-! The boundary's signals (R19). They change nothing. -/

/-- `imem_addr`: the fetch address, the pc while Running. R19 does not say what it carries in Halted and in Faulted: the
model gives it no value there (DESIGN CHOICE, log 21). -/
def imemAddr (s : State) : Option Word := if s.runState = .running then some s.pc else none
/-- `imem_oob`: the fetch address is outside the window; no value where there is no fetch address (DESIGN CHOICE,
log 21). -/
def imemOob (s : State) : Option Bool := (imemAddr s).map fun a => !inWindow s.cfg a
/-- `imem_word`: the word FetchWord answers at the fetch address. Where the address is outside the window (`imem_oob` is
1), or where there is none, the spec states no word (R33, N4: not zero), and the model gives none (DESIGN CHOICE,
log 21). -/
def imemWord (s : State) : Option Word := (imemAddr s).bind fun a => (fetchWord s a).toOption
/-- `halted`. -/
def haltedOut (s : State) : Bool := decide (s.runState = .halted)
/-- `faulted`. -/
def faultedOut (s : State) : Bool := decide (s.runState = .faulted)
/-- `pc_out`. -/
def pcOut (s : State) : Word := s.pc
/-- `dbg_reg_val` for `dbg_reg_idx`. -/
def dbgRegVal (s : State) (i : RegIdx) : Word := readReg s i

/-- The result of a run (R20, R87): the registers and the pc, once the core is Halted and only then. -/
def readBack (s : State) : Option (Vector Word 32 × Word) :=
  if s.runState = .halted then some (s.regs, s.pc) else none

/-! The host's moves. -/

/-- Why the host's move is none: the spec gives it no meaning. -/
inductive HostRefusal where
  /-- A write to instruction memory while the core is Running (R42, R133, U8: refuse). -/
  | imemWriteDuringRun
  /-- A write to a slot that does not exist (R16, R31). -/
  | slotOutOfRange
  /-- More words than slots (R16, R44). -/
  | programTooLong
  /-- A register preload once the run has taken a step, or to a core that has not the form of a launch state (R19,
  R113, R128). -/
  | preloadDuringRun
  /-- A program that did not assemble: no run starts (R73, R129). -/
  | assemblyFailed
  deriving DecidableEq, Repr

/-- The `rst` input (R125): whatever the state was, registers zero, pc at the base, Running; instruction memory is
not touched (R127, D20). -/
def hostReset (s : State) : State :=
  { s with regs := Vector.replicate 32 0#32, pc := s.cfg.baseTextAddr, runState := .running }

/-- The form of a launch state (R128): Running, at the base address, any registers, any instruction memory. A run that
comes back to the base address has this form again, so it alone does not show that no step was taken. -/
def isLaunch (s : State) : Bool := decide (s.runState = .running) && decide (s.pc = s.cfg.baseTextAddr)

/-- The core, and whether it has taken a step since the last reset. `started` is the host's own record, which R19
needs ("legal only before the first step of a run"), and no state of the core (R17; log 16). -/
structure HostSession where
  core : State
  started : Bool
  deriving DecidableEq, Repr

/-- Reset (R125): a run that has not begun. -/
def sessionReset (h : HostSession) : HostSession := { core := hostReset h.core, started := false }

/-- One step of the core, recorded. -/
def sessionStep (h : HostSession) : Host.Outcome HostSession Fault Refusal :=
  match step h.core with
  | .next t => .next { core := t, started := true }
  | .fault f => .fault f
  | .refused r => .refused r

/-- `n` steps, recorded. -/
def sessionSteps : Nat → HostSession → Host.Outcome HostSession Fault Refusal
  | 0, h => .next h
  | n + 1, h =>
    match sessionStep h with
    | .next t => sessionSteps n t
    | .fault f => .fault f
    | .refused r => .refused r

/-- `ld_en`, `ld_idx`, `ld_val` (R19, R128, D11): preload a register before the first step of a run and at no other
time, so that no preload alters a run in progress (R113). -/
def hostPreload (i : RegIdx) (v : Word) (h : HostSession) : Except HostRefusal HostSession :=
  if isLaunch h.core && !h.started then .ok { h with core := writeReg h.core i v } else .error .preloadDuringRun

/-- The loader's write port (R19, R44): one slot, while no run is going on. -/
def hostWriteSlot (slot : Nat) (w : Word) (s : State) : Except HostRefusal State :=
  if s.runState = .running then .error .imemWriteDuringRun
  else if slot < s.cfg.imemSlots then .ok { s with imem := imemWrite s.imem slot w }
  else .error .slotOutOfRange

/-- Boot (R129): words to slots 0 .. n-1 and zero in every other slot (R44), reset, preload `regs`. One move, with no
step of the core inside it: the run has not begun. -/
def bootWords (words : List Word) (regs : Vector Word 32) (s : State) : Except HostRefusal HostSession :=
  if words.length ≤ s.cfg.imemSlots then
    .ok { core := { hostReset s with regs := regs, imem := imemOfWords 0 words }, started := false }
  else .error .programTooLong

/-- The thin driver (R130): assemble, then boot; a program that does not assemble never runs (R73). -/
def assembleAndBoot (p : AsmParams) (lines : List (List Char)) (regs : Vector Word 32) (s : State) :
    Except HostRefusal HostSession :=
  match assemble p lines with
  | none => .error .assemblyFailed
  | some words => bootWords words regs s

/-! The harness (R137). -/

/-- What a harness reports of a run. -/
inductive Report where
  /-- Halted, with the registers and the pc (R87). -/
  | finished (regs : Vector Word 32) (pc : Word)
  /-- Faulted at an address (R112): the run has no result. -/
  | faulted (a : Word)
  /-- The step bound was reached first: no result. -/
  | didNotFinish
  deriving DecidableEq, Repr

/-- Drive the core for at most `maxSteps` steps (R137, D19): the harness whose `MAX_STEPS` is that number. A step always answers a next state (Laws/Step.lean,
`step_eq_next`), so the last arm is never taken. -/
def harnessRun : Nat → State → Report
  | maxSteps, s =>
    match s.runState with
    | .halted => .finished s.regs s.pc
    | .faulted => .faulted s.pc
    | .running =>
      match maxSteps with
      | 0 => .didNotFinish
      | n + 1 =>
        match step s with
        | .next t => harnessRun n t
        | .fault _ | .refused _ => .didNotFinish

/-- What the harness reports of the run from `s` under a value of `MAX_STEPS` (R6, R137). With none, the default, it goes
on until the core is Halted or Faulted: it never reports `didNotFinish`, and of an endless run (R135) it reports
nothing, so this is a relation and no function. -/
def HarnessReports (maxSteps : MaxSteps) (s : State) (r : Report) : Prop :=
  match maxSteps with
  | some n => harnessRun n s = r
  | none => r ≠ .didNotFinish ∧ ∃ n, harnessRun n s = r

end Sys2Proof.Machine
end

