-- ==== Sys2Proof/Safety.lean ====
section
/-! DEFINITION. What counts as a safe run, and the terms the statements are written in. -/

namespace Sys2Proof.Machine

/-- Every listed slot exists (R16). -/
def imemBelow (slots : Nat) (m : Imem) : Bool := m.all fun e => decide (e.1 < slots)

/-- The model's invariant: legal parameters (R6), an aligned pc (R14, R34), instruction memory in canonical form, and
no slot beyond `IMEM_SLOTS` (R16). -/
abbrev State.wf (s : State) : Prop :=
  s.cfg.wf ∧ s.pc.toNat % 4 = 0 ∧ Imem.wf s.imem = true ∧ imemBelow s.cfg.imemSlots s.imem = true

/-- `n` steps of the core. -/
def runSteps (n : Nat) (s : State) : Host.Outcome State Fault Refusal := Sys2Proof.core.run n s

/-- The run from `s` ends successfully (R87): it reaches Halted. -/
def EndsSuccessfully (s : State) : Prop := ∃ n t, runSteps n s = .next t ∧ t.runState = .halted

/-- The run from `s` goes on for ever (R135). -/
def RunsForever (s : State) : Prop := ∀ n, ∃ t, runSteps n s = .next t ∧ t.runState = .running

/-- The run from `s` does not reach Faulted: what R112 asks every claim about a program to prove. -/
def NeverFaults (s : State) : Prop := ∀ n t, runSteps n s = .next t → t.runState ≠ .faulted

/-- `t` differs from `s` in `x[i]`, which holds `v`, and in the pc, which is `a`, and in nothing else: every other
register, the run state, every slot of instruction memory and the parameters are as before. -/
abbrev WritesOnly (s t : State) (i : RegIdx) (v a : Word) : Prop :=
  readReg t i = v ∧ (∀ j, j ≠ i → readReg t j = readReg s j) ∧ t.pc = a ∧ t.runState = s.runState ∧
    (∀ slot, imemRead t.imem slot = imemRead s.imem slot) ∧ t.imem = s.imem ∧ t.cfg = s.cfg

/-- `t` differs from `s` in the pc, which is `a`, and in nothing else. -/
abbrev MovesOnly (s t : State) (a : Word) : Prop :=
  (∀ j, readReg t j = readReg s j) ∧ t.pc = a ∧ t.runState = s.runState ∧
    (∀ slot, imemRead t.imem slot = imemRead s.imem slot) ∧ t.imem = s.imem ∧ t.cfg = s.cfg

/-- `t` differs from `s` in the run state, which is `r`, and in nothing else. -/
abbrev TurnsOnly (s t : State) (r : RunState) : Prop :=
  (∀ j, readReg t j = readReg s j) ∧ t.pc = s.pc ∧ t.runState = r ∧
    (∀ slot, imemRead t.imem slot = imemRead s.imem slot) ∧ t.imem = s.imem ∧ t.cfg = s.cfg

/-- The register an instruction writes, if any (R12's table). -/
def destination : Instr → Option RegIdx
  | .add _ _ rd _ | .sll _ _ rd _ | .srl _ _ rd _ => some rd
  | .addi _ rt _ | .andi _ rt _ => some rt
  | .nop | .beq .. | .bne .. => none

/-- The registers an instruction reads (R12's table). -/
def sources : Instr → List RegIdx
  | .add rs rt _ _ | .beq rs rt _ | .bne rs rt _ => [rs, rt]
  | .sll _ _ rd _ | .srl _ _ rd _ => [rd]
  | .addi rs _ _ | .andi rs _ _ => [rs]
  | .nop => []

/-- The displacement field of a branch that is taken in `s` (R100, R101); none for a branch not taken and for every
other instruction. -/
def takenDisplacement (i : Instr) (s : State) : Option Imm16 :=
  match i with
  | .beq rs rt imm => if readReg s rs = readReg s rt then some imm else none
  | .bne rs rt imm => if readReg s rs = readReg s rt then none else some imm
  | .nop | .add .. | .sll .. | .srl .. | .addi .. | .andi .. => none

/-- The same machine with its text base, and its pc, moved by `d` (D1). -/
def relocate (d : Word) (s : State) : State :=
  { s with cfg := { s.cfg with baseTextAddr := s.cfg.baseTextAddr + d }, pc := s.pc + d }

/-- The next state of an outcome changed by `f`. -/
def mapNext (f : State → State) : Host.Outcome State Fault Refusal → Host.Outcome State Fault Refusal
  | .next s => .next (f s)
  | .fault r => .fault r
  | .refused r => .refused r

end Sys2Proof.Machine
end

