-- ==== Sys2Proof/Certificates/Slice0/Obligations.lean ====
section
/-! DEFINITION. The statements for the provers, from the numbered rules of spec/. "Derived" in a docstring marks a
statement that rests, in part, on a decision the spec marks as its own or on an entry of the assumption log. -/

open Sys2Proof Sys2Proof.Machine

/-! ### Encoding -/

/-- R49: a field is `(word >> offset) & (2^width - 1)`; R46, R47: where each field stands. -/
def Obligations.FieldIsShiftedAndMasked : Prop :=
  ∀ w : Word, (∀ offset width : Nat, (unpack w offset width).toNat = (w.toNat >>> offset) &&& (2 ^ width - 1)) ∧
    (opOf w).toNat = w.toNat / 2 ^ 26 ∧ (rsOf w).toNat = w.toNat / 2 ^ 21 % 32 ∧
    (rtOf w).toNat = w.toNat / 2 ^ 16 % 32 ∧ (rdOf w).toNat = w.toNat / 2 ^ 11 % 32 ∧
    (shamtOf w).toNat = w.toNat / 2 ^ 6 % 32 ∧ (functOf w).toNat = w.toNat % 64 ∧
    (immOf w).toNat = w.toNat % 65536

/-- Derived from R46, R47, R55, R59, R75: every well-formed instruction is read back from its word, every operand at
every value; that the fields of R57 are operands too is the model's choice (log 11). -/
def Obligations.DecodeInvertsEncode : Prop :=
  ∀ i : Instr, i.wellFormed = true → decode (encode i) = .instr i

/-- Derived from R46, R47, R49, R57: no bit of a recognised word is dropped; that the ignored fields of R57
(the spec's decision D17) are kept is the model's choice (log 11). -/
def Obligations.EncodeInvertsDecode : Prop :=
  ∀ (w : Word) (i : Instr), decode w = .instr i → encode i = w ∧ i.wellFormed = true

/-- R55: the opcode map by mask and match, for every word. -/
def Obligations.DecodeFollowsMaskAndMatch : Prop :=
  ∀ w : Word,
    (decode w = .instr .nop ↔ w &&& 0xFFFFFFFF#32 = 0x00000000#32) ∧
    ((∃ rs rt rd shamt, decode w = .instr (.add rs rt rd shamt)) ↔ w &&& 0xFC00003F#32 = 0x00000020#32) ∧
    ((∃ rs rt rd shamt, decode w = .instr (.sll rs rt rd shamt)) ↔
      w &&& 0xFC00003F#32 = 0x00000000#32 ∧ w ≠ 0#32) ∧
    ((∃ rs rt rd shamt, decode w = .instr (.srl rs rt rd shamt)) ↔ w &&& 0xFC00003F#32 = 0x00000002#32) ∧
    ((∃ rs rt imm, decode w = .instr (.addi rs rt imm)) ↔ w &&& 0xFC000000#32 = 0x20000000#32) ∧
    ((∃ rs rt imm, decode w = .instr (.andi rs rt imm)) ↔ w &&& 0xFC000000#32 = 0x30000000#32) ∧
    ((∃ rs rt imm, decode w = .instr (.beq rs rt imm)) ↔ w &&& 0xFC000000#32 = 0x10000000#32) ∧
    ((∃ rs rt imm, decode w = .instr (.bne rs rt imm)) ↔ w &&& 0xFC000000#32 = 0x14000000#32)

/-- Derived from R58, R107, R108 (the spec's decision D5): a word is unrecognised exactly by its selector. -/
def Obligations.UnrecognisedExactlyBySelector : Prop :=
  ∀ w : Word,
    (decode w = .unrecognisedR ↔
      opOf w = 0x00#6 ∧ functOf w ≠ 0x00#6 ∧ functOf w ≠ 0x02#6 ∧ functOf w ≠ 0x20#6) ∧
    (decode w = .unrecognisedI ↔
      opOf w ≠ 0x00#6 ∧ opOf w ≠ 0x04#6 ∧ opOf w ≠ 0x05#6 ∧ opOf w ≠ 0x08#6 ∧ opOf w ≠ 0x0C#6)

/-- Derived from R57 (the spec's decision D17): the fields a recognised instruction does not use change nothing. -/
def Obligations.IgnoredFieldsChangeNothing : Prop :=
  ∀ (s : State) (rs rt rs' rt' rd : RegIdx) (shamt shamt' : Shamt),
    exec (.add rs rt rd shamt) s = exec (.add rs rt rd shamt') s ∧
    exec (.sll rs rt rd shamt) s = exec (.sll rs' rt' rd shamt) s ∧
    exec (.srl rs rt rd shamt) s = exec (.srl rs' rt' rd shamt) s

/-- Words of 95_test_vectors.md sections 2.1 and 2.3, each read as the spec lists it (E2, E6, E10, E13, E15, E18, E19,
F7, F8, F9, F10, F11). -/
def Obligations.ListedWordsDecode : Prop :=
  decode 0x012A4020#32 = .instr (.add 9 10 8 0) ∧ decode 0x2128FFFB#32 = .instr (.addi 9 8 0xFFFB) ∧
  decode 0x312800FF#32 = .instr (.andi 9 8 0x00FF) ∧ decode 0x00094080#32 = .instr (.sll 0 9 8 2) ∧
  decode 0x00094082#32 = .instr (.srl 0 9 8 2) ∧ decode 0x11090002#32 = .instr (.beq 8 9 2) ∧
  decode 0x1509FFFE#32 = .instr (.bne 8 9 0xFFFE) ∧ decode 0x00000000#32 = .instr .nop ∧
  decode 0x00200000#32 = .instr (.sll 1 0 0 0) ∧ decode 0x012A47E0#32 = .instr (.add 9 10 8 31) ∧
  decode 0x012A4022#32 = .unrecognisedR ∧ decode 0xFFFFFFFF#32 = .unrecognisedI

/-! ### Immediates and branch targets -/

/-- Derived from R7, R52 (both values of SEXT_BOUNDARY; which one is the default is the spec's decision D4): the
signed reading of a 16-bit field, as an integer and as a word. -/
def Obligations.SignedFieldReading : Prop :=
  ∀ v : Imm16,
    (v.toNat < 0x8000 → sextInt .contract v = v.toNat) ∧ (0x8000 ≤ v.toNat → sextInt .contract v = v.toNat - 65536) ∧
    (v.toNat ≤ 0x8000 → sextInt .reference v = v.toNat) ∧ (0x8000 < v.toNat → sextInt .reference v = v.toNat - 65536) ∧
    ∀ b, ((sext32 b v).toNat : Int) = sextInt b v % 2 ^ 32

/-- Derived from R52, C1 (the spec's decision D4, log 4): under `contract` the reading is two's complement, and `reference` differs from it at 0x8000
and nowhere else. -/
def Obligations.ContractIsTwosComplement : Prop :=
  ∀ v : Imm16, sext32 .contract v = v.signExtend 32 ∧ sextInt .contract v = v.toInt ∧
    (sext32 .reference v ≠ sext32 .contract v ↔ v = 0x8000#16)

/-- Derived from R75 and R64's range (the spec's decision D4, log 4): every immediate and displacement the assembler accepts reads back under
`contract`, and under `reference` every one but -32768. -/
def Obligations.AcceptedImmediateReadsBack : Prop :=
  ∀ v : Int, -32768 ≤ v → v ≤ 32767 →
    sextInt .contract (BitVec.ofInt 16 v) = v ∧ (sextInt .reference (BitVec.ofInt 16 v) = v ↔ v ≠ -32768)

/-- R54: the displacement is a signed count of slots and the target is `pc + 4 + 4*disp` modulo 2^32, in 32-bit terms
`pc + 4 + (sext_32(imm16) << 2)`. -/
def Obligations.BranchTargetInWordTerms : Prop :=
  ∀ (b : SextBoundary) (pc : Word) (imm : Imm16),
    ((branchTarget b pc imm).toNat : Int) = ((pc.toNat : Int) + 4 + 4 * sextInt b imm) % 2 ^ 32 ∧
    branchTarget b pc imm = pc + 4#32 + (sext32 b imm <<< 2)

/-- Derived from R63, R103 (and the spec's decision D4, `contract`): a branch in slot `slot` whose field is the
displacement of a label goes to the slot of the first line that carries the label. -/
def Obligations.BranchLandsOnItsLabel : Prop :=
  ∀ (c : Config) (labels : List (Option Token)) (slot : Nat) (label : Token) (d : Int),
    resolveLabel labels slot label = some d → -32768 ≤ d → d ≤ 32767 →
    ∃ k, firstIndex (some label) labels = some k ∧
      branchTarget .contract (slotAddr c slot) (BitVec.ofInt 16 d) = slotAddr c k

/-- Derived from R34, R104: the target of a branch at an aligned pc is aligned, and lies from slot `s - 32767` to
slot `s + 32768` for a branch in slot `s` (under `reference`, one slot more). -/
def Obligations.BranchTargetAlignedAndInReach : Prop :=
  ∀ (b : SextBoundary) (pc : Word) (imm : Imm16), pc.toNat % 4 = 0 →
    (branchTarget b pc imm).toNat % 4 = 0 ∧
    ∃ k : Int, -32767 ≤ k ∧ (b = .contract → k ≤ 32768) ∧ k ≤ 32769 ∧
      branchTarget b pc imm = pc + BitVec.ofInt 32 (4 * k)

/-! ### Instructions: what each does, that it completes, and its frame -/

/-- R90. -/
def Obligations.AddWritesSum : Prop :=
  ∀ (s : State) (rs rt rd : RegIdx) (shamt : Shamt),
    decode (0#6 ++ rs ++ rt ++ rd ++ shamt ++ 0x20#6 : BitVec 32) = .instr (.add rs rt rd shamt) ∧
    ∃ t, exec (.add rs rt rd shamt) s = .next t ∧
      WritesOnly s t rd (BitVec.ofNat 32 ((readReg s rs).toNat + (readReg s rt).toNat)) (s.pc + 4#32)

/-- R91: for every value of the parameter SEXT_BOUNDARY that the state holds. -/
def Obligations.AddiWritesSumWithSignedImmediate : Prop :=
  ∀ (s : State) (rs rt : RegIdx) (imm : Imm16),
    decode (0x08#6 ++ rs ++ rt ++ imm : BitVec 32) = .instr (.addi rs rt imm) ∧
    ∃ t, exec (.addi rs rt imm) s = .next t ∧
      WritesOnly s t rt (BitVec.ofInt 32 ((readReg s rs).toNat + sextInt s.cfg.sextBoundary imm)) (s.pc + 4#32)

/-- R95, R53: the immediate is zero-extended, so the upper 16 bits of the result are zero. -/
def Obligations.AndiMasksWithZeroExtendedImmediate : Prop :=
  ∀ (s : State) (rs rt : RegIdx) (imm : Imm16),
    decode (0x0C#6 ++ rs ++ rt ++ imm : BitVec 32) = .instr (.andi rs rt imm) ∧
    ∃ t, exec (.andi rs rt imm) s = .next t ∧
      WritesOnly s t rt (readReg s rs &&& BitVec.ofNat 32 imm.toNat) (s.pc + 4#32) ∧
      (readReg t rt).toNat < 2 ^ 16

/-- R97: the destination's own value is shifted left; the all-zero word is no sll (R59). -/
def Obligations.SllShiftsDestinationLeft : Prop :=
  ∀ (s : State) (rs rt rd : RegIdx) (shamt : Shamt),
    (¬(rs = 0 ∧ rt = 0 ∧ rd = 0 ∧ shamt = 0) →
      decode (0#6 ++ rs ++ rt ++ rd ++ shamt ++ 0x00#6 : BitVec 32) = .instr (.sll rs rt rd shamt)) ∧
    ∃ t, exec (.sll rs rt rd shamt) s = .next t ∧
      WritesOnly s t rd (BitVec.ofNat 32 ((readReg s rd).toNat * 2 ^ shamt.toNat)) (s.pc + 4#32)

/-- R98: the destination's own value is shifted right with zero fill. -/
def Obligations.SrlShiftsDestinationRight : Prop :=
  ∀ (s : State) (rs rt rd : RegIdx) (shamt : Shamt),
    decode (0#6 ++ rs ++ rt ++ rd ++ shamt ++ 0x02#6 : BitVec 32) = .instr (.srl rs rt rd shamt) ∧
    ∃ t, exec (.srl rs rt rd shamt) s = .next t ∧
      WritesOnly s t rd (BitVec.ofNat 32 ((readReg s rd).toNat / 2 ^ shamt.toNat)) (s.pc + 4#32)

/-- R100: taken exactly on equality of all 32 bits; only the pc changes. -/
def Obligations.BeqBranchesOnEquality : Prop :=
  ∀ (s : State) (rs rt : RegIdx) (imm : Imm16),
    decode (0x04#6 ++ rs ++ rt ++ imm : BitVec 32) = .instr (.beq rs rt imm) ∧
    ∃ t, exec (.beq rs rt imm) s = .next t ∧
      MovesOnly s t (if readReg s rs = readReg s rt
        then BitVec.ofInt 32 (s.pc.toNat + 4 + 4 * sextInt s.cfg.sextBoundary imm) else s.pc + 4#32)

/-- R101: taken exactly on inequality; only the pc changes. -/
def Obligations.BneBranchesOnInequality : Prop :=
  ∀ (s : State) (rs rt : RegIdx) (imm : Imm16),
    decode (0x05#6 ++ rs ++ rt ++ imm : BitVec 32) = .instr (.bne rs rt imm) ∧
    ∃ t, exec (.bne rs rt imm) s = .next t ∧
      MovesOnly s t (if readReg s rs ≠ readReg s rt
        then BitVec.ofInt 32 (s.pc.toNat + 4 + 4 * sextInt s.cfg.sextBoundary imm) else s.pc + 4#32)

/-- Derived from R82, R83: the zero word is nop and halts; that the pc stays is the spec's decision D8 (log 13). -/
def Obligations.NopHaltsAndChangesNothingElse : Prop :=
  ∀ s : State, decode 0x00000000#32 = .instr .nop ∧ ∃ t, exec .nop s = .next t ∧ TurnsOnly s t .halted

/-- Derived from R107, R108 (the spec's decision D5, log 10): an unrecognised word advances the pc and does nothing
else, whatever its other bits. -/
def Obligations.UnrecognisedWordOnlyAdvances : Prop :=
  ∀ (s : State) (w : Word), decode w = .unrecognisedR ∨ decode w = .unrecognisedI →
    ∃ t, execDecoded (decode w) s = .next t ∧ MovesOnly s t (s.pc + 4#32)

/-- Derived from R21: an instruction whose destination is also a source uses the old value as the source. -/
def Obligations.OldValueIsTheSource : Prop :=
  ∀ (s : State) (r rs rt : RegIdx) (shamt : Shamt) (imm : Imm16),
    (∃ t, exec (.add r r r shamt) s = .next t ∧
      readReg t r = BitVec.ofNat 32 (2 * (readReg s r).toNat) ∧ t.pc = s.pc + 4#32) ∧
    (∃ t, exec (.addi r r imm) s = .next t ∧
      readReg t r = readReg s r + sext32 s.cfg.sextBoundary imm ∧ t.pc = s.pc + 4#32) ∧
    (∃ t, exec (.andi r r imm) s = .next t ∧ readReg t r = readReg s r &&& zext32 imm ∧ t.pc = s.pc + 4#32) ∧
    (∃ t, exec (.sll rs rt r shamt) s = .next t ∧ readReg t r = readReg s r <<< shamt.toNat ∧ t.pc = s.pc + 4#32) ∧
    (∃ t, exec (.srl rs rt r shamt) s = .next t ∧ readReg t r = readReg s r >>> shamt.toNat ∧ t.pc = s.pc + 4#32)

/-- R11: register 0 is an ordinary register: a write to it by each of the five writing instructions stores the value,
it holds 0 after reset, and it keeps its value while no instruction names it as its destination. -/
def Obligations.RegisterZeroIsOrdinary : Prop :=
  ∀ (s : State) (rs rt : RegIdx) (shamt : Shamt) (imm : Imm16),
    (∃ t, exec (.add rs rt 0 shamt) s = .next t ∧ readReg t 0 = readReg s rs + readReg s rt) ∧
    (∃ t, exec (.addi rs 0 imm) s = .next t ∧ readReg t 0 = readReg s rs + sext32 s.cfg.sextBoundary imm) ∧
    (∃ t, exec (.andi rs 0 imm) s = .next t ∧ readReg t 0 = readReg s rs &&& zext32 imm) ∧
    (∃ t, exec (.sll rs rt 0 shamt) s = .next t ∧ readReg t 0 = readReg s 0 <<< shamt.toNat) ∧
    (∃ t, exec (.srl rs rt 0 shamt) s = .next t ∧ readReg t 0 = readReg s 0 >>> shamt.toNat) ∧
    readReg (hostReset s) 0 = 0#32 ∧
    ∀ i t, exec i s = .next t → destination i ≠ some 0 → readReg t 0 = readReg s 0

/-- Derived from the table of R12: what an instruction writes depends on the registers it reads and on no other, and it
writes no register but its destination. -/
def Obligations.EffectDependsOnSourcesOnly : Prop :=
  ∀ (i : Instr) (s s' : State), s.cfg = s'.cfg → s.pc = s'.pc →
    (∀ r, r ∈ sources i → readReg s r = readReg s' r) →
    ∃ t t', exec i s = .next t ∧ exec i s' = .next t' ∧ t.pc = t'.pc ∧
      (∀ d, destination i = some d → readReg t d = readReg t' d) ∧
      ∀ j, destination i ≠ some j → readReg t j = readReg s j ∧ readReg t' j = readReg s' j

/-- R110: no instruction can trap: each answers a next state, and leaves the run state as it was unless it is the
halt word, which halts. -/
def Obligations.NoInstructionTraps : Prop :=
  ∀ (i : Instr) (s : State), ∃ t, exec i s = .next t ∧
    t.runState = if i = .nop then RunState.halted else s.runState

/-! ### Instruction memory and fetch -/

/-- R31: slot `i` is at `BASE_TEXT_ADDR + 4*i`, the slot of that address is `i`, an address is in the window exactly if
`(a - BASE_TEXT_ADDR) mod 2^32 < 4 * IMEM_SLOTS`, and every aligned address of the window is the address of its slot. -/
def Obligations.SlotsAndAddressesCorrespond : Prop :=
  ∀ c : Config, c.wf →
    (∀ i, i < c.imemSlots → inWindow c (slotAddr c i) = true ∧ slotOf c (slotAddr c i) = i) ∧
    ∀ a : Word,
      (inWindow c a = true ↔ ((a.toNat : Int) - c.baseTextAddr.toNat) % 2 ^ 32 < 4 * (c.imemSlots : Int)) ∧
      (inWindow c a = true → a.toNat % 4 = 0 → slotOf c a < c.imemSlots ∧ slotAddr c (slotOf c a) = a)

/-- Derived from R33, R36 (outside the window: the spec's decision D3, log 5): FetchWord returns the slot's word in
the window and raises FetchOutOfRange outside it. That the slot of an address whose offset is no multiple of 4 is the
quotient rounded down is the model's choice (log 9): R33 and R34 give such an address no meaning. -/
def Obligations.FetchWordReadsTheSlot : Prop :=
  ∀ (s : State) (a : Word),
    ((a - s.cfg.baseTextAddr).toNat < 4 * s.cfg.imemSlots →
      fetchWord s a = .ok (imemRead s.imem ((a - s.cfg.baseTextAddr).toNat / 4))) ∧
    (4 * s.cfg.imemSlots ≤ (a - s.cfg.baseTextAddr).toNat → fetchWord s a = .error (.fetchOutOfRange a))

/-- R42: instruction memory is read-only during execution: after any number of steps it is what the loader left, every
fetch sees the loader's word, and the model gives a host write while Running no meaning. -/
def Obligations.InstructionMemoryIsReadOnly : Prop :=
  (∀ (n : Nat) (s t : State), runSteps n s = .next t →
    t.imem = s.imem ∧ t.cfg = s.cfg ∧ ∀ a, fetchWord t a = fetchWord s a) ∧
  ∀ (s : State) (slot : Nat) (w : Word), s.runState = .running → hostWriteSlot slot w s = .error .imemWriteDuringRun

/-! ### The step -/

/-- The step runs the decoded instruction (40_step_and_halt.md section 2): when the word fetched at the pc decodes to
`i`, the step is exec of `i` and nothing is added around it. -/
def Obligations.StepRunsTheDecodedInstruction : Prop :=
  ∀ (s : State) (w : Word) (i : Instr), s.runState = .running → fetchWord s s.pc = .ok w → decode w = .instr i →
    step s = exec i s

/-- Derived from R82, R112, R114 (the spec's decisions D3 and D8, log 5 and 13): outside the window the step faults
and changes nothing but the run state; on the zero word it halts and changes nothing but the run state. -/
def Obligations.StepFaultsOrHaltsChangingOnlyRunState : Prop :=
  ∀ s : State, s.runState = .running →
    (4 * s.cfg.imemSlots ≤ (s.pc - s.cfg.baseTextAddr).toNat → ∃ t, step s = .next t ∧ TurnsOnly s t .faulted) ∧
    (fetchWord s s.pc = .ok 0#32 → ∃ t, step s = .next t ∧ TurnsOnly s t .halted)

/-- R84: every step that executes an instruction other than a taken branch ends with `pc <- pc + 4`, not-taken branches
and unrecognised words included; a taken branch ends with its target. -/
def Obligations.PcAdvancesUnlessTaken : Prop :=
  ∀ (s t : State) (w : Word), s.runState = .running → fetchWord s s.pc = .ok w → w ≠ 0#32 → step s = .next t →
    (∀ imm i, decode w = .instr i → takenDisplacement i s = some imm →
      t.pc = BitVec.ofInt 32 (s.pc.toNat + 4 + 4 * sextInt s.cfg.sextBoundary imm)) ∧
    ((∀ i, decode w = .instr i → takenDisplacement i s = none) → t.pc = s.pc + 4#32)

/-- R102: no delay slot: a taken branch changes no register and leaves the core Running at its target, and the next step
executes the word fetched there. -/
def Obligations.NoBranchDelaySlot : Prop :=
  ∀ (s : State) (w : Word) (i : Instr) (imm : Imm16), s.runState = .running → fetchWord s s.pc = .ok w →
    decode w = .instr i → takenDisplacement i s = some imm →
    ∃ t, step s = .next t ∧ MovesOnly s t (branchTarget s.cfg.sextBoundary s.pc imm) ∧
      ∀ w', fetchWord s (branchTarget s.cfg.sextBoundary s.pc imm) = .ok w' → step t = execDecoded (decode w') t

/-- Derived from R15 (the spec's decision D3): the only transitions a step makes are Running to Halted, on a zero word,
and Running to Faulted, outside the window; and each happens exactly then. -/
def Obligations.RunStateTransitions : Prop :=
  ∀ s t : State, step s = .next t →
    (s.runState ≠ .running → t = s) ∧
    (s.runState = .running → (t.runState = .faulted ↔ inWindow s.cfg s.pc = false)) ∧
    (s.runState = .running → (t.runState = .halted ↔ fetchWord s s.pc = .ok 0#32))

/-- Derived from R14, R80 (the spec's decisions D8 and D3, log 5 and 13): every step writes at most one general register, and a step that halts or faults writes
neither a register nor the pc. -/
def Obligations.StepWritesAtMostOneRegister : Prop :=
  ∀ s t : State, step s = .next t →
    (∃ i : RegIdx, ∀ j, j ≠ i → readReg t j = readReg s j) ∧
    (t.runState ≠ .running → t.pc = s.pc ∧ ∀ j, readReg t j = readReg s j)

/-- Derived from R85, R86 (the spec's decisions D9 and D3, log 6): Halted and Faulted are absorbing. -/
def Obligations.HaltedAndFaultedAreAbsorbing : Prop :=
  ∀ (s : State) (n : Nat), s.runState ≠ .running → runSteps n s = .next s

/-- Derived from R83, R85, R87 (the spec's decisions D8 and D9, log 6 and 13): a zero word at the pc, wherever it stands, ends the run there, and the result is the same
after every further step. -/
def Obligations.ZeroWordEndsTheRun : Prop :=
  ∀ s : State, s.runState = .running → fetchWord s s.pc = .ok 0#32 →
    EndsSuccessfully s ∧ NeverFaults s ∧
    ∃ t, TurnsOnly s t .halted ∧ readBack t = some (s.regs, s.pc) ∧ ∀ n, runSteps (n + 1) s = .next t

/-- Derived from R106, R135 (the spec's decision D7, log 14): a branch to self that is taken runs for ever and never changes
the state, under either value of SEXT_BOUNDARY. -/
def Obligations.BranchToSelfRunsForever : Prop :=
  ∀ (s : State) (w : Word) (i : Instr), s.runState = .running → fetchWord s s.pc = .ok w → decode w = .instr i →
    takenDisplacement i s = some 0xFFFF#16 → (∀ n, runSteps n s = .next s) ∧ RunsForever s ∧ ¬EndsSuccessfully s

/-- Derived from R6, R14, R16, R34 (and the spec's decision D14, log 12): from every state that meets the invariant (legal parameters, aligned pc, canonical
instruction memory within IMEM_SLOTS) every step leads to a state that meets it. -/
def Obligations.StepKeepsWellFormed : Prop :=
  ∀ s t : State, s.wf → step s = .next t → t.wf

/-- Derived from 92_eei_decisions.md D1 ("programs are position-independent"): moving the text base and the pc together
changes nothing in what a step does. -/
def Obligations.StepIsPositionIndependent : Prop :=
  ∀ (d : Word) (s : State), step (relocate d s) = mapNext (relocate d) (step s)

/-! ### Reset, launch, host -/

/-- R125: whatever the state was, reset makes every register 0, the pc BASE_TEXT_ADDR and the run state Running. -/
def Obligations.ResetWhateverTheState : Prop :=
  ∀ s : State, (∀ i, readReg (hostReset s) i = 0x00000000#32) ∧ (hostReset s).pc = s.cfg.baseTextAddr ∧
    (hostReset s).runState = .running

/-- Derived from R127, R128 (the spec's decisions D11 and D20): reset leaves instruction memory and the parameters alone
and gives a launch state; the model's initial state is reset's own result. -/
def Obligations.ResetLeavesInstructionMemory : Prop :=
  (∀ s : State, (hostReset s).imem = s.imem ∧ (hostReset s).cfg = s.cfg ∧ isLaunch (hostReset s) = true) ∧
  ∀ cfg regs pc r, hostReset ⟨cfg, regs, pc, r, []⟩ = { State.reset with cfg := cfg, pc := cfg.baseTextAddr }

/-- Derived from log 2, 3 and 4: the state after reset, under the default parameters, meets the invariant. -/
def Obligations.ResetIsWellFormed : Prop := State.reset.wf

/-- Derived from R19, R128 (the spec's decision D11, log 16): the host may preload a register in a launch state before
the first step, and at no other time; the preload writes that register, leaves a launch state and is no step; reset makes
it possible again. -/
def Obligations.PreloadOnlyAtLaunch : Prop :=
  ∀ (h : HostSession) (i : RegIdx) (v : Word),
    (isLaunch h.core = true → h.started = false → ∃ t, hostPreload i v h = .ok t ∧
      WritesOnly h.core t.core i v h.core.pc ∧ isLaunch t.core = true ∧ t.started = false) ∧
    (h.started = true ∨ isLaunch h.core = false → hostPreload i v h = .error .preloadDuringRun) ∧
    isLaunch (sessionReset h).core = true ∧ (sessionReset h).started = false

/-- Derived from R113, R19, R42 (the moves: log 16): after any number of steps, at least one, the session holds the state
the core's own steps lead to, no preload is accepted, and no write to instruction memory while the core is Running: also
where the run has come back to the base address. -/
def Obligations.HostCannotAlterARun : Prop :=
  ∀ (n : Nat) (h : HostSession), ∃ t, runSteps (n + 1) h.core = .next t ∧
    sessionSteps (n + 1) h = .next { core := t, started := true } ∧
    (∀ i v, hostPreload i v { core := t, started := true } = .error .preloadDuringRun) ∧
    (t.runState = .running → ∀ slot w, hostWriteSlot slot w t = .error .imemWriteDuringRun)

/-- Derived from R44, R128, R129 (the spec's decision D12, log 16): booting a program of at most IMEM_SLOTS words gives a
launch state with word `k` in slot `k`, zero in every other slot and the preloaded registers; a longer one is refused. -/
def Obligations.BootLoadsTheProgram : Prop :=
  ∀ (words : List Word) (regs : Vector Word 32) (s : State),
    (words.length ≤ s.cfg.imemSlots → ∃ t, bootWords words regs s = .ok { core := t, started := false } ∧
      isLaunch t = true ∧ t.regs = regs ∧ t.cfg = s.cfg ∧ ∀ k, imemRead t.imem k = words.getD k 0#32) ∧
    (s.cfg.imemSlots < words.length → bootWords words regs s = .error .programTooLong)

/-- Derived from R16, R44, R125 (which moves are accepted: log 16): every move of the host that is accepted keeps the invariant. -/
def Obligations.HostMovesKeepWellFormed : Prop :=
  ∀ s : State, s.wf →
    (hostReset s).wf ∧
    (∀ started i v t, hostPreload i v { core := s, started := started } = .ok t → t.core.wf) ∧
    (∀ slot w t, hostWriteSlot slot w s = .ok t → t.wf ∧ imemRead t.imem slot = w ∧
      ∀ k, k ≠ slot → imemRead t.imem k = imemRead s.imem k) ∧
    (∀ words regs t, bootWords words regs s = .ok t → t.core.wf) ∧
    ∀ p lines regs t, assembleAndBoot p lines regs s = .ok t →
      t.core.wf ∧ isLaunch t.core = true ∧ t.started = false

/-- Derived from R87, R137 (the spec's decision D19): the harness with a bound of `n` steps reports a result exactly if
the run is Halted within `n` steps, a fault exactly if it is Faulted within `n` steps, and otherwise that it did not
finish. -/
def Obligations.HarnessReportsTheRun : Prop :=
  ∀ (n : Nat) (s : State) (regs : Vector Word 32) (pc : Word),
    (harnessRun n s = .finished regs pc ↔
      ∃ k t, k ≤ n ∧ runSteps k s = .next t ∧ t.runState = .halted ∧ t.regs = regs ∧ t.pc = pc) ∧
    (harnessRun n s = .faulted pc ↔
      ∃ k t, k ≤ n ∧ runSteps k s = .next t ∧ t.runState = .faulted ∧ t.pc = pc) ∧
    (harnessRun n s = .didNotFinish ↔ ∃ t, runSteps n s = .next t ∧ t.runState = .running)

/-- Derived from R6, R87, R135, R137 (the spec's decision D19): without a bound the harness reports a result exactly if
the run reaches Halted, a fault exactly if it reaches Faulted, never that the run did not finish, no two different
things, and nothing at all exactly if the run goes on for ever. -/
def Obligations.UnboundedHarnessReportsTheRun : Prop :=
  ∀ s : State,
    (∀ regs pc, HarnessReports none s (.finished regs pc) ↔
      ∃ k t, runSteps k s = .next t ∧ t.runState = .halted ∧ t.regs = regs ∧ t.pc = pc) ∧
    (∀ pc, HarnessReports none s (.faulted pc) ↔ ∃ k t, runSteps k s = .next t ∧ t.runState = .faulted ∧ t.pc = pc) ∧
    ¬HarnessReports none s .didNotFinish ∧
    (∀ r r', HarnessReports none s r → HarnessReports none s r' → r = r') ∧
    ((∀ r, ¬HarnessReports none s r) ↔ RunsForever s)

/-! ### Assembler and decoder agree -/

/-- Derived from R50, R61 to R72: a parsed line assembles exactly if it is `nop` alone, or one of the other seven
mnemonics with three valid operands, and then to exactly the word of the instruction that it names (the two halves are
"bit-for-bit consistent", R3); its opcode is unknown exactly if it is none of the eight. The grammar of decimal literals
is the model's choice (log 18), the numbering of the names is the parameter `n` (the spec's D15). -/
def Obligations.AssemblerAgreesWithEncoder : Prop :=
  ∀ (n : RegNumbering) (labels : List (Option Token)) (slot : Nat) (l : SourceLine) (w : Word),
    (encodeLine n labels slot l = .ok w ↔
      (l.opcode = ['n', 'o', 'p'] ∧ l.args = [] ∧ w = 0x00000000#32) ∨
      ∃ a1 a2 a3, l.args = [a1, a2, a3] ∧
        ((l.opcode = ['a', 'd', 'd'] ∧ ∃ rd rs rt, regIndex n a1 = some rd ∧ regIndex n a2 = some rs ∧
            regIndex n a3 = some rt ∧ w = encode (.add rs rt rd 0)) ∨
         (l.opcode = ['a', 'd', 'd', 'i'] ∧ ∃ rt rs v, regIndex n a1 = some rt ∧ regIndex n a2 = some rs ∧
            parseDecimal a3 = some v ∧ -32768 ≤ v ∧ v ≤ 32767 ∧ w = encode (.addi rs rt (BitVec.ofInt 16 v))) ∨
         (l.opcode = ['a', 'n', 'd', 'i'] ∧ ∃ rt rs v, regIndex n a1 = some rt ∧ regIndex n a2 = some rs ∧
            parseDecimal a3 = some v ∧ -32768 ≤ v ∧ v ≤ 32767 ∧ w = encode (.andi rs rt (BitVec.ofInt 16 v))) ∨
         (l.opcode = ['b', 'e', 'q'] ∧ ∃ rs rt d, regIndex n a1 = some rs ∧ regIndex n a2 = some rt ∧
            resolveLabel labels slot a3 = some d ∧ -32768 ≤ d ∧ d ≤ 32767 ∧
            w = encode (.beq rs rt (BitVec.ofInt 16 d))) ∨
         (l.opcode = ['b', 'n', 'e'] ∧ ∃ rs rt d, regIndex n a1 = some rs ∧ regIndex n a2 = some rt ∧
            resolveLabel labels slot a3 = some d ∧ -32768 ≤ d ∧ d ≤ 32767 ∧
            w = encode (.bne rs rt (BitVec.ofInt 16 d))) ∨
         (l.opcode = ['s', 'r', 'l'] ∧ ∃ rd rt v, regIndex n a1 = some rd ∧ regIndex n a2 = some rt ∧
            parseDecimal a3 = some v ∧ 0 ≤ v ∧ v ≤ 31 ∧ w = encode (.srl 0 rt rd (BitVec.ofInt 5 v))) ∨
         (l.opcode = ['s', 'l', 'l'] ∧ ∃ rd rt v, regIndex n a1 = some rd ∧ regIndex n a2 = some rt ∧
            parseDecimal a3 = some v ∧ 0 ≤ v ∧ v ≤ 31 ∧ w = encode (.sll 0 rt rd (BitVec.ofInt 5 v))))) ∧
    (encodeLine n labels slot l = .error .unknownOpcode ↔
      l.opcode ∉ [['n', 'o', 'p'], ['a', 'd', 'd'], ['a', 'd', 'd', 'i'], ['a', 'n', 'd', 'i'], ['b', 'e', 'q'],
        ['b', 'n', 'e'], ['s', 'r', 'l'], ['s', 'l', 'l']])

/-- Derived from R77 (the grammar's open points: log 18): every word the assembler emits is one the decoder recognises. -/
def Obligations.AssembledWordsAreRecognised : Prop :=
  ∀ (p : AsmParams) (lines : List (List Char)) (words : List Word) (w : Word),
    assemble p lines = some words → w ∈ words → ∃ i, decode w = .instr i

/-- Derived from R73, R77 (the grammar's open points: log 18): assembly is all-or-nothing, and word `k` is the word of source line `k`. -/
def Obligations.AssemblyIsAllOrNothing : Prop :=
  ∀ (p : AsmParams) (lines : List (List Char)),
    (∀ words, assemble p lines = some words → words.length = lines.length ∧
      ∀ (k : Nat) (line : List Char), lines[k]? = some line →
        ∃ w, words[k]? = some w ∧ assembleLine p (labelsOf p lines) k line = .ok w) ∧
    ∀ (k : Nat) (line : List Char) (e : AsmError), lines[k]? = some line →
      assembleLine p (labelsOf p lines) k line = .error e → assemble p lines = none

/-- Derived from R73, R74: every line up to the first unknown opcode has its report, the word with its address or the
failure with line number, kind and attempted encoding; no line after an unknown opcode has one. The model's choices here
(log 18): that a line after an unknown opcode has no report (R73 says only that it gets no word), that lines are numbered
from 0 in a report, and what an attempted encoding is and when a line has one. -/
def Obligations.DiagnosticsReportEveryLine : Prop :=
  ∀ (c : Config) (p : AsmParams) (lines : List (List Char)) (k : Nat) (line : List Char), lines[k]? = some line →
    ((∀ j line', j < k → lines[j]? = some line' →
        assembleLine p (labelsOf p lines) j line' ≠ .error .unknownOpcode) →
      (∀ w, assembleLine p (labelsOf p lines) k line = .ok w →
        (assemblerReports c p lines)[k]? = some (.word w (c.baseTextAddr + BitVec.ofNat 32 (4 * k)))) ∧
      ∀ e, assembleLine p (labelsOf p lines) k line = .error e →
        (assemblerReports c p lines)[k]? = some (.failure k e (attemptOf p line))) ∧
    ((∃ j line', j < k ∧ lines[j]? = some line' ∧
        assembleLine p (labelsOf p lines) j line' = .error .unknownOpcode) →
      (assemblerReports c p lines)[k]? = none)
end

