-- ==== Sys2Proof/Laws/Assembler.lean ====
section
/-! SUPPORT. What packing does, as numbers, and when the assembler's small operations succeed. -/

namespace Sys2Proof.Machine

theorem orError_eq_ok {α : Type} {e : AsmError} {x : Option α} {a : α} : orError e x = .ok a ↔ x = some a := by
  cases x <;> simp [orError]

theorem except_bind_eq_ok {ε α β : Type} {x : Except ε α} {f : α → Except ε β} {b : β} :
    (x >>= f) = .ok b ↔ ∃ a, x = .ok a ∧ f a = .ok b := by
  cases x <;> simp [bind, Except.bind]

/-- A signed 16-bit field is packed exactly if its value is in [-32768, 32767] (R50, R64). -/
theorem pack_signed16 {e : AsmError} {w x : Word} {v : Int} {offset : Nat} :
    pack true e w v 16 offset = .ok x ↔ -32768 ≤ v ∧ v ≤ 32767 ∧ x = setField w (BitVec.ofInt 16 v) offset := by
  have hfits : fitsField true v 16 = decide (-32768 ≤ v ∧ v ≤ 32767) := by
    simp only [fitsField, if_true, ← Bool.decide_and]
    apply decide_eq_decide.mpr
    constructor <;> intro h <;> constructor <;> omega
  unfold pack
  rw [hfits]
  by_cases h : -32768 ≤ v ∧ v ≤ 32767
  · simp [h, eq_comm]
  · simp [h]; omega

/-- A shift amount is packed exactly if it is in [0, 31] (R50, R64). -/
theorem pack_unsigned5 {e : AsmError} {w x : Word} {v : Int} {offset : Nat} :
    pack false e w v 5 offset = .ok x ↔ 0 ≤ v ∧ v ≤ 31 ∧ x = setField w (BitVec.ofInt 5 v) offset := by
  have hfits : fitsField false v 5 = decide (0 ≤ v ∧ v ≤ 31) := by
    simp only [fitsField, ← Bool.decide_and, Bool.false_eq_true, if_false]
    apply decide_eq_decide.mpr
    constructor <;> intro h <;> constructor <;> omega
  unfold pack
  rw [hfits]
  by_cases h : 0 ≤ v ∧ v ≤ 31
  · simp [h, eq_comm]
  · simp [h]; omega

/-- A number whose bits from `offset` on for `k` places are zero has room for a field there. -/
theorem add_field_lt {w v offset k : Nat} (hk : offset + k ≤ 32) (hw : w < 2 ^ 32) (hv : v < 2 ^ k)
    (hz : w / 2 ^ offset % 2 ^ k = 0) : w + v * 2 ^ offset < 2 ^ 32 := by
  have hq : w / 2 ^ offset = 2 ^ k * (w / 2 ^ offset / 2 ^ k) := by
    have := Nat.div_add_mod (w / 2 ^ offset) (2 ^ k); omega
  have hsplit : w = 2 ^ offset * (2 ^ k * (w / 2 ^ offset / 2 ^ k)) + w % 2 ^ offset := by
    rw [← hq]; exact (Nat.div_add_mod _ _).symm
  generalize w / 2 ^ offset / 2 ^ k = c at hsplit
  have hr : w % 2 ^ offset < 2 ^ offset := Nat.mod_lt _ (by positivity)
  have h32 : 2 ^ 32 = 2 ^ offset * 2 ^ k * 2 ^ (32 - (offset + k)) := by
    rw [← pow_add, ← pow_add]; congr 1; omega
  have hc : c < 2 ^ (32 - (offset + k)) := by
    by_contra hge
    have : 2 ^ offset * 2 ^ k * 2 ^ (32 - (offset + k)) ≤ 2 ^ offset * 2 ^ k * c :=
      Nat.mul_le_mul_left _ (by omega)
    rw [← Nat.mul_assoc] at hsplit
    omega
  have h1 : 2 ^ offset * 2 ^ k * (c + 1) ≤ 2 ^ 32 := by rw [h32]; exact Nat.mul_le_mul_left _ hc
  have h2 : (v + 1) * 2 ^ offset ≤ 2 ^ k * 2 ^ offset := Nat.mul_le_mul_right _ hv
  calc w + v * 2 ^ offset < 2 ^ offset * (2 ^ k * c) + 2 ^ offset + v * 2 ^ offset := by omega
    _ = 2 ^ offset * 2 ^ k * c + (v + 1) * 2 ^ offset := by ring
    _ ≤ 2 ^ offset * 2 ^ k * c + 2 ^ k * 2 ^ offset := by omega
    _ = 2 ^ offset * 2 ^ k * (c + 1) := by ring
    _ ≤ 2 ^ 32 := h1

/-- ORing a field into bits that are still zero adds its value at its place (R50). -/
theorem setField_toNat {k : Nat} (w : Word) (v : BitVec k) (offset : Nat) (hk : offset + k ≤ 32)
    (hz : w.toNat / 2 ^ offset % 2 ^ k = 0) : (setField w v offset).toNat = w.toNat + v.toNat * 2 ^ offset := by
  have hsum := add_field_lt hk w.isLt v.isLt hz
  have hpos : 0 < 2 ^ offset := by positivity
  have hsmall : v.toNat < 2 ^ 32 := by
    have := Nat.le_mul_of_pos_right v.toNat hpos; omega
  have hx : (v.zeroExtend 32 <<< offset).toNat = v.toNat * 2 ^ offset := by
    rw [BitVec.toNat_shiftLeft, Nat.shiftLeft_eq]
    simp only [BitVec.truncate_eq_setWidth, BitVec.toNat_setWidth]
    rw [Nat.mod_eq_of_lt hsmall, Nat.mod_eq_of_lt (by omega)]
  have hand : w &&& (v.zeroExtend 32 <<< offset) = 0#32 := by
    apply BitVec.eq_of_toNat_eq
    rw [BitVec.toNat_and, hx]
    apply Nat.eq_of_testBit_eq
    intro i
    simp only [Nat.testBit_and, BitVec.toNat_ofNat, Nat.zero_mod, Nat.zero_testBit, ← Nat.shiftLeft_eq,
      Nat.testBit_shiftLeft]
    by_cases h1 : offset ≤ i
    · by_cases h2 : i - offset < k
      · have := congrArg (fun n => n.testBit (i - offset)) hz
        simp only [Nat.testBit_mod_two_pow, Nat.testBit_div_two_pow, Nat.zero_testBit, h2, decide_true,
          Bool.true_and] at this
        rw [show i - offset + offset = i by omega] at this
        simp [this]
      · have : v.toNat.testBit (i - offset) = false :=
          Nat.testBit_lt_two_pow (lt_of_lt_of_le v.isLt (Nat.pow_le_pow_right (by omega) (by omega)))
        simp [this]
    · simp [h1]
  unfold setField
  rw [← BitVec.add_eq_or_of_and_eq_zero _ _ hand, BitVec.toNat_add, hx, Nat.mod_eq_of_lt hsum]

end Sys2Proof.Machine
end

