-- ==== Sys2Proof/Laws/Encoding.lean ====
section
/-! SUPPORT. What the fields of a word are as numbers, and the fields of the words the encoder builds. -/

namespace Sys2Proof

theorem append_toNat {m n : Nat} (x : BitVec m) (y : BitVec n) :
    (x ++ y).toNat = x.toNat * 2 ^ n + y.toNat := by
  rw [BitVec.toNat_append, ← Nat.shiftLeft_add_eq_or_of_lt y.isLt, Nat.shiftLeft_eq]

/-- R49: `(word >> offset) & (2^width - 1)`, as numbers. -/
theorem unpack_toNat (w : Word) (offset width : Nat) :
    (unpack w offset width).toNat = w.toNat / 2 ^ offset % 2 ^ width := by
  rw [unpack, BitVec.extractLsb'_toNat, Nat.shiftRight_eq_div_pow]

theorem registerWord_toNat (rs rt rd : RegIdx) (shamt : Shamt) (funct : BitVec 6) :
    (registerWord rs rt rd shamt funct).toNat =
      rs.toNat * 2 ^ 21 + rt.toNat * 2 ^ 16 + rd.toNat * 2 ^ 11 + shamt.toNat * 2 ^ 6 + funct.toNat := by
  simp only [registerWord, append_toNat, BitVec.toNat_ofNat]
  omega

theorem immediateWord_toNat (op : BitVec 6) (rs rt : RegIdx) (imm : Imm16) :
    (immediateWord op rs rt imm).toNat =
      op.toNat * 2 ^ 26 + rs.toNat * 2 ^ 21 + rt.toNat * 2 ^ 16 + imm.toNat := by
  simp only [immediateWord, append_toNat]
  omega

section RegisterFormat
variable (rs rt rd : RegIdx) (shamt : Shamt) (funct : BitVec 6)

theorem opOf_registerWord : opOf (registerWord rs rt rd shamt funct) = 0#6 := by
  apply BitVec.eq_of_toNat_eq
  rw [opOf, unpack_toNat, registerWord_toNat, BitVec.toNat_ofNat]; omega

theorem rsOf_registerWord : rsOf (registerWord rs rt rd shamt funct) = rs := by
  apply BitVec.eq_of_toNat_eq
  rw [rsOf, unpack_toNat, registerWord_toNat]; omega

theorem rtOf_registerWord : rtOf (registerWord rs rt rd shamt funct) = rt := by
  apply BitVec.eq_of_toNat_eq
  rw [rtOf, unpack_toNat, registerWord_toNat]; omega

theorem rdOf_registerWord : rdOf (registerWord rs rt rd shamt funct) = rd := by
  apply BitVec.eq_of_toNat_eq
  rw [rdOf, unpack_toNat, registerWord_toNat]; omega

theorem shamtOf_registerWord : shamtOf (registerWord rs rt rd shamt funct) = shamt := by
  apply BitVec.eq_of_toNat_eq
  rw [shamtOf, unpack_toNat, registerWord_toNat]; omega

theorem functOf_registerWord : functOf (registerWord rs rt rd shamt funct) = funct := by
  apply BitVec.eq_of_toNat_eq
  rw [functOf, unpack_toNat, registerWord_toNat]; omega

end RegisterFormat

section ImmediateFormat
variable (op : BitVec 6) (rs rt : RegIdx) (imm : Imm16)

theorem opOf_immediateWord : opOf (immediateWord op rs rt imm) = op := by
  apply BitVec.eq_of_toNat_eq
  rw [opOf, unpack_toNat, immediateWord_toNat]; omega

theorem rsOf_immediateWord : rsOf (immediateWord op rs rt imm) = rs := by
  apply BitVec.eq_of_toNat_eq
  rw [rsOf, unpack_toNat, immediateWord_toNat]; omega

theorem rtOf_immediateWord : rtOf (immediateWord op rs rt imm) = rt := by
  apply BitVec.eq_of_toNat_eq
  rw [rtOf, unpack_toNat, immediateWord_toNat]; omega

theorem immOf_immediateWord : immOf (immediateWord op rs rt imm) = imm := by
  apply BitVec.eq_of_toNat_eq
  rw [immOf, unpack_toNat, immediateWord_toNat]; omega

end ImmediateFormat

/-- A register-format word is made of its fields (R46). -/
theorem registerWord_of_fields (w : Word) (h : opOf w = 0#6) :
    registerWord (rsOf w) (rtOf w) (rdOf w) (shamtOf w) (functOf w) = w := by
  have h0 := congrArg BitVec.toNat h
  apply BitVec.eq_of_toNat_eq
  rw [registerWord_toNat]
  simp only [opOf, rsOf, rtOf, rdOf, shamtOf, functOf, unpack_toNat, BitVec.toNat_ofNat] at h0 ⊢
  omega

/-- An immediate-format word is made of its fields (R47). -/
theorem immediateWord_of_fields (w : Word) :
    immediateWord (opOf w) (rsOf w) (rtOf w) (immOf w) = w := by
  apply BitVec.eq_of_toNat_eq
  rw [immediateWord_toNat]
  simp only [opOf, rsOf, rtOf, immOf, unpack_toNat]
  omega

end Sys2Proof
end

