-- ==== Sys2Proof/Laws/State.lean ====
section
/-! SUPPORT. One lemma per field of State per update of Machine/Ops.lean, true by rfl, so that no proof unfolds a
record update; and the two laws of the register file. -/

namespace Sys2Proof.Machine

@[simp] theorem writeReg_cfg (s : State) (i : RegIdx) (v : Word) : (writeReg s i v).cfg = s.cfg := rfl
@[simp] theorem writeReg_regs (s : State) (i : RegIdx) (v : Word) : (writeReg s i v).regs = s.regs.set i.toNat v i.isLt := rfl
@[simp] theorem writeReg_pc (s : State) (i : RegIdx) (v : Word) : (writeReg s i v).pc = s.pc := rfl
@[simp] theorem writeReg_runState (s : State) (i : RegIdx) (v : Word) : (writeReg s i v).runState = s.runState := rfl
@[simp] theorem writeReg_imem (s : State) (i : RegIdx) (v : Word) : (writeReg s i v).imem = s.imem := rfl

@[simp] theorem setPc_cfg (s : State) (a : Word) : (setPc s a).cfg = s.cfg := rfl
@[simp] theorem setPc_regs (s : State) (a : Word) : (setPc s a).regs = s.regs := rfl
@[simp] theorem setPc_pc (s : State) (a : Word) : (setPc s a).pc = a := rfl
@[simp] theorem setPc_runState (s : State) (a : Word) : (setPc s a).runState = s.runState := rfl
@[simp] theorem setPc_imem (s : State) (a : Word) : (setPc s a).imem = s.imem := rfl

@[simp] theorem setRunState_cfg (s : State) (r : RunState) : (setRunState s r).cfg = s.cfg := rfl
@[simp] theorem setRunState_regs (s : State) (r : RunState) : (setRunState s r).regs = s.regs := rfl
@[simp] theorem setRunState_pc (s : State) (r : RunState) : (setRunState s r).pc = s.pc := rfl
@[simp] theorem setRunState_runState (s : State) (r : RunState) : (setRunState s r).runState = r := rfl
@[simp] theorem setRunState_imem (s : State) (r : RunState) : (setRunState s r).imem = s.imem := rfl

@[simp] theorem advance_cfg (s : State) : (advance s).cfg = s.cfg := rfl
@[simp] theorem advance_regs (s : State) : (advance s).regs = s.regs := rfl
@[simp] theorem advance_pc (s : State) : (advance s).pc = s.pc + 4#32 := rfl
@[simp] theorem advance_runState (s : State) : (advance s).runState = s.runState := rfl
@[simp] theorem advance_imem (s : State) : (advance s).imem = s.imem := rfl

/-- A register read sees the latest write to that register, and no other (R10: no aliasing). -/
theorem readReg_writeReg (s : State) (i j : RegIdx) (v : Word) :
    readReg (writeReg s i v) j = if j = i then v else readReg s j := by
  by_cases h : j = i
  · subst h; simp [readReg]
  · have : i.toNat ≠ j.toNat := fun e => h (BitVec.eq_of_toNat_eq e.symm)
    simp [readReg, Vector.getElem_set_ne, this, h]

@[simp] theorem readReg_writeReg_same (s : State) (i : RegIdx) (v : Word) : readReg (writeReg s i v) i = v := by
  simp [readReg_writeReg]

theorem readReg_writeReg_other (s : State) {i j : RegIdx} (v : Word) (h : j ≠ i) :
    readReg (writeReg s i v) j = readReg s j := by
  simp [readReg_writeReg, h]

@[simp] theorem readReg_setPc (s : State) (a : Word) (j : RegIdx) : readReg (setPc s a) j = readReg s j := rfl
@[simp] theorem readReg_setRunState (s : State) (r : RunState) (j : RegIdx) :
    readReg (setRunState s r) j = readReg s j := rfl
@[simp] theorem readReg_advance (s : State) (j : RegIdx) : readReg (advance s) j = readReg s j := rfl

end Sys2Proof.Machine
end

