-- ==== Sys2Proof/Laws/Step.lean ====
section
/-! SUPPORT. What the shared operations, the meanings and a step can do, each said once. -/

namespace Sys2Proof.Machine

theorem writeAndAdvance_next {s t : State} {i : RegIdx} {v : Word} (h : writeAndAdvance s i v = .next t) :
    t = advance (writeReg s i v) := by cases h; rfl

theorem branchIf_next {s t : State} {taken : Bool} {imm : Imm16} (h : branchIf taken imm s = .next t) :
    t = if taken then setPc s (branchTarget s.cfg.sextBoundary s.pc imm) else advance s := by cases h; rfl

theorem raiseFault_eq (f : Fault) (s : State) : raiseFault f s = .next (setRunState s .faulted) := by cases f; rfl

/-- FetchWord answers the word of the slot, in the window and nowhere else. -/
theorem fetchWord_eq_ok {s : State} {a w : Word} :
    fetchWord s a = .ok w ↔ inWindow s.cfg a = true ∧ imemRead s.imem (slotOf s.cfg a) = w := by
  unfold fetchWord
  split <;> simp_all

/-- FetchWord fails outside the window and nowhere else, naming the address. -/
theorem fetchWord_eq_error {s : State} {a : Word} {f : Fault} :
    fetchWord s a = .error f ↔ inWindow s.cfg a = false ∧ f = .fetchOutOfRange a := by
  cases hw : inWindow s.cfg a
  · simp only [fetchWord, hw, true_and, Bool.false_eq_true, if_false, Except.error.injEq]
    exact ⟨Eq.symm, Eq.symm⟩
  · simp [fetchWord, hw]

/-- Everything an instruction can do: halt, write one register and advance, or move the pc. -/
theorem exec_cases {i : Instr} {s t : State} (h : exec i s = .next t) :
    (i = .nop ∧ t = setRunState s .halted) ∨
    (∃ d v, t = advance (writeReg s d v)) ∨
    (∃ imm, t = setPc s (branchTarget s.cfg.sextBoundary s.pc imm)) ∨
    t = advance s := by
  cases i <;> simp only [exec] at h
  case nop => cases h; exact .inl ⟨rfl, rfl⟩
  case add => exact .inr (.inl ⟨_, _, writeAndAdvance_next h⟩)
  case sll => exact .inr (.inl ⟨_, _, writeAndAdvance_next h⟩)
  case srl => exact .inr (.inl ⟨_, _, writeAndAdvance_next h⟩)
  case addi => exact .inr (.inl ⟨_, _, writeAndAdvance_next h⟩)
  case andi => exact .inr (.inl ⟨_, _, writeAndAdvance_next h⟩)
  case beq rs rt imm =>
    have := branchIf_next h
    split at this
    · exact .inr (.inr (.inl ⟨imm, this⟩))
    · exact .inr (.inr (.inr this))
  case bne rs rt imm =>
    have := branchIf_next h
    split at this
    · exact .inr (.inr (.inl ⟨imm, this⟩))
    · exact .inr (.inr (.inr this))

/-- Every instruction answers a next state. -/
theorem exec_eq_next (i : Instr) (s : State) : ∃ t, exec i s = .next t := by
  cases i <;> exact ⟨_, rfl⟩

theorem execDecoded_eq_next (d : Decoded) (s : State) : ∃ t, execDecoded d s = .next t := by
  cases d with
  | instr i => exact exec_eq_next i s
  | unrecognisedR => exact ⟨_, rfl⟩
  | unrecognisedI => exact ⟨_, rfl⟩

theorem step_running_ok {s : State} {w : Word} (hr : s.runState = .running) (hf : fetchWord s s.pc = .ok w) :
    step s = execDecoded (decode w) s := by simp [step, hr, hf]

theorem step_running_error {s : State} {f : Fault} (hr : s.runState = .running) (hf : fetchWord s s.pc = .error f) :
    step s = .next (setRunState s .faulted) := by simp [step, hr, hf, raiseFault_eq]

theorem step_not_running {s : State} (hr : s.runState ≠ .running) : step s = .next s := by
  cases h : s.runState <;> simp_all [step, idle]

/-- A step always answers a next state: no fault of the host's outcome, no refusal. -/
theorem step_eq_next (s : State) : ∃ t, step s = .next t := by
  by_cases hr : s.runState = .running
  · cases hf : fetchWord s s.pc with
    | error f => exact ⟨_, step_running_error hr hf⟩
    | ok w => exact step_running_ok hr hf ▸ execDecoded_eq_next _ s
  · exact ⟨s, step_not_running hr⟩

/-- Everything a step can do. -/
theorem step_cases {s t : State} (h : step s = .next t) :
    (s.runState ≠ .running ∧ t = s) ∨
    (s.runState = .running ∧ inWindow s.cfg s.pc = false ∧ t = setRunState s .faulted) ∨
    (s.runState = .running ∧ inWindow s.cfg s.pc = true ∧
      execDecoded (decode (imemRead s.imem (slotOf s.cfg s.pc))) s = .next t) := by
  by_cases hr : s.runState = .running
  · cases hf : fetchWord s s.pc with
    | error f =>
      rw [step_running_error hr hf] at h
      cases h
      exact .inr (.inl ⟨hr, (fetchWord_eq_error.mp hf).1, rfl⟩)
    | ok w =>
      rw [step_running_ok hr hf] at h
      obtain ⟨hw, rfl⟩ := fetchWord_eq_ok.mp hf
      exact .inr (.inr ⟨hr, hw, h⟩)
  · rw [step_not_running hr] at h
    cases h
    exact .inl ⟨hr, rfl⟩

/-- Everything the executed word can do to the state (R80: at most one register, the pc, or the run state alone). -/
theorem execDecoded_cases {d : Decoded} {s t : State} (h : execDecoded d s = .next t) :
    (d = .instr .nop ∧ t = setRunState s .halted) ∨
    (∃ i v, t = advance (writeReg s i v)) ∨
    (∃ imm, t = setPc s (branchTarget s.cfg.sextBoundary s.pc imm)) ∨
    t = advance s := by
  cases d with
  | instr i =>
    obtain ⟨hi, ht⟩ | h | h | h := exec_cases h
    · exact .inl ⟨congrArg _ hi, ht⟩
    · exact .inr (.inl h)
    · exact .inr (.inr (.inl h))
    · exact .inr (.inr (.inr h))
  | unrecognisedR => cases h; exact .inr (.inr (.inr rfl))
  | unrecognisedI => cases h; exact .inr (.inr (.inr rfl))

/-! Runs of several steps. -/

@[simp] theorem runSteps_zero (s : State) : runSteps 0 s = .next s := rfl

theorem runSteps_succ {s t : State} (n : Nat) (h : step s = .next t) : runSteps (n + 1) s = runSteps n t := by
  have hc : Sys2Proof.core.step s = .next t := h
  simp only [runSteps, Host.Core.run, hc]
  rfl

end Sys2Proof.Machine
end

