-- ==== Sys2Proof/Laws/HostPort.lean ====
section
/-! SUPPORT. What the host's moves and the boundary's signals can do, each said once. -/

namespace Sys2Proof.Machine

@[simp] theorem sessionReset_core (h : HostSession) : (sessionReset h).core = hostReset h.core := rfl
@[simp] theorem sessionReset_started (h : HostSession) : (sessionReset h).started = false := rfl

@[simp] theorem isLaunch_hostReset (s : State) : isLaunch (hostReset s) = true := by simp [isLaunch, hostReset]

/-- Writing a register does not change whether a state has the form of a launch state. -/
@[simp] theorem isLaunch_writeReg (s : State) (i : RegIdx) (v : Word) : isLaunch (writeReg s i v) = isLaunch s := rfl

/-- A recorded step is the core's step. -/
theorem sessionStep_of_step {h : HostSession} {t : State} (hs : step h.core = .next t) :
    sessionStep h = .next { core := t, started := true } := by simp [sessionStep, hs]

theorem sessionSteps_succ {h k : HostSession} (n : Nat) (hs : sessionStep h = .next k) :
    sessionSteps (n + 1) h = sessionSteps n k := by simp [sessionSteps, hs]

/-- When a preload is accepted, and all that it does. -/
theorem hostPreload_eq_ok {i : RegIdx} {v : Word} {h k : HostSession} :
    hostPreload i v h = .ok k ↔
      isLaunch h.core = true ∧ h.started = false ∧ k = { core := writeReg h.core i v, started := false } := by
  obtain ⟨s, started⟩ := h
  cases started <;> cases hl : isLaunch s <;> simp [hostPreload, hl, eq_comm]

/-- When a write to instruction memory is accepted, and all that it does. -/
theorem hostWriteSlot_eq_ok {slot : Nat} {w : Word} {s t : State} :
    hostWriteSlot slot w s = .ok t ↔
      s.runState ≠ .running ∧ slot < s.cfg.imemSlots ∧ t = { s with imem := imemWrite s.imem slot w } := by
  unfold hostWriteSlot
  split_ifs <;> simp_all [eq_comm]

/-- When a boot is accepted, and all that it does. -/
theorem bootWords_eq_ok {words : List Word} {regs : Vector Word 32} {s : State} {k : HostSession} :
    bootWords words regs s = .ok k ↔ words.length ≤ s.cfg.imemSlots ∧
      k = { core := { hostReset s with regs := regs, imem := imemOfWords 0 words }, started := false } := by
  unfold bootWords
  split_ifs with h <;> simp [h, eq_comm]

/-- `imem_word` carries a word exactly while the core is Running and the pc is in the window: the word that is fetched. -/
theorem imemWord_eq_some {s : State} {w : Word} :
    imemWord s = some w ↔ s.runState = .running ∧ fetchWord s s.pc = .ok w := by
  by_cases hr : s.runState = .running
  · cases hf : fetchWord s s.pc <;> simp [imemWord, imemAddr, hr, hf, Except.toOption]
  · simp [imemWord, imemAddr, hr]

/-- With a bound, the harness reports what `harnessRun` answers. -/
@[simp] theorem harnessReports_some {n : Nat} {s : State} {r : Report} :
    HarnessReports (some n) s r ↔ harnessRun n s = r := Iff.rfl

/-- Without one, it reports what some bound shows of a run that has ended. -/
@[simp] theorem harnessReports_none {s : State} {r : Report} :
    HarnessReports none s r ↔ r ≠ .didNotFinish ∧ ∃ n, harnessRun n s = r := Iff.rfl

end Sys2Proof.Machine
end

