-- ==== Sys2Proof/Laws/Memory.lean ====
section
/-! SUPPORT. The laws of instruction memory: a read after a write, and that every memory operation keeps the canonical
form and the bound on slots. -/

namespace Sys2Proof.Machine

theorem imemCanonicalFrom_mono {lo lo' : Nat} (h : lo' ≤ lo) :
    ∀ m : Imem, imemCanonicalFrom lo m = true → imemCanonicalFrom lo' m = true
  | [], _ => rfl
  | (k, v) :: rest, hm => by
    simp only [imemCanonicalFrom, Bool.and_eq_true, decide_eq_true_eq] at hm ⊢
    exact ⟨⟨by omega, hm.1.2⟩, hm.2⟩

/-- A slot below every listed one reads as zero. -/
theorem imemRead_below {lo slot : Nat} (h : slot < lo) :
    ∀ m : Imem, imemCanonicalFrom lo m = true → imemRead m slot = 0#32
  | [], _ => rfl
  | (k, v) :: rest, hm => by
    simp only [imemCanonicalFrom, Bool.and_eq_true, decide_eq_true_eq] at hm
    rw [imemRead, if_neg (by omega)]
    exact imemRead_below (by omega) rest hm.2

/-- Writing keeps the canonical form, from any lower bound that takes in the slot. -/
theorem imemWrite_canonicalFrom {lo slot : Nat} (w : Word) (h : lo ≤ slot) :
    ∀ m : Imem, imemCanonicalFrom lo m = true → imemCanonicalFrom lo (imemWrite m slot w) = true
  | [], _ => by
    by_cases hw : w = 0#32 <;> simp [imemWrite, imemCanonicalFrom, hw, h]
  | (k, v) :: rest, hm => by
    have hm' := hm
    simp only [imemCanonicalFrom, Bool.and_eq_true, decide_eq_true_eq] at hm
    obtain ⟨⟨hk, hv⟩, hrest⟩ := hm
    by_cases h1 : slot < k
    · by_cases hw : w = 0#32
      · simpa [imemWrite, h1, hw] using hm'
      · simp [imemWrite, h1, hw, imemCanonicalFrom, h, hv, hrest]
    · by_cases h2 : slot = k
      · subst h2
        by_cases hw : w = 0#32
        · simpa [imemWrite, hw] using imemCanonicalFrom_mono (by omega) rest hrest
        · simp [imemWrite, hw, imemCanonicalFrom, hk, hrest]
      · have ih := imemWrite_canonicalFrom w (lo := k + 1) (slot := slot) (by omega) rest hrest
        simp [imemWrite, h1, h2, imemCanonicalFrom, hk, hv, ih]

/-- `imemWrite` keeps the canonical form. -/
theorem imemWrite_wf (m : Imem) (slot : Nat) (w : Word) (h : Imem.wf m = true) :
    Imem.wf (imemWrite m slot w) = true := imemWrite_canonicalFrom w (Nat.zero_le slot) m h

/-- A read after a write, in a memory in canonical form from `lo` on. -/
theorem imemRead_imemWrite_from {lo slot : Nat} (w : Word) (j : Nat) :
    ∀ m : Imem, imemCanonicalFrom lo m = true →
      imemRead (imemWrite m slot w) j = if j = slot then w else imemRead m j
  | [], _ => by
    by_cases hw : w = 0#32
    · simp [imemWrite, hw, imemRead]
    · by_cases hj : j = slot
      · simp [imemWrite, hw, imemRead, hj]
      · simp [imemWrite, hw, imemRead, hj, Ne.symm hj]
  | (k, v) :: rest, hm => by
    have hm' := hm
    simp only [imemCanonicalFrom, Bool.and_eq_true, decide_eq_true_eq] at hm
    obtain ⟨⟨_, _⟩, hrest⟩ := hm
    by_cases h1 : slot < k
    · by_cases hw : w = 0#32
      · simp only [imemWrite, h1, hw, if_true]
        by_cases hj : j = slot
        · subst hj
          have hz := imemRead_below (Nat.lt_succ_of_lt h1) rest hrest
          simp [imemRead, Nat.ne_of_gt h1, hz]
        · simp [hj]
      · by_cases hj : j = slot
        · subst hj; simp [imemWrite, h1, hw, imemRead]
        · simp [imemWrite, h1, hw, imemRead, hj, Ne.symm hj]
    · by_cases h2 : slot = k
      · subst h2
        by_cases hj : j = slot
        · subst hj
          by_cases hw : w = 0#32
          · simpa [imemWrite, hw] using imemRead_below (Nat.lt_succ_self j) rest hrest
          · simp [imemWrite, hw, imemRead]
        · by_cases hw : w = 0#32 <;> simp [imemWrite, hw, imemRead, hj, Ne.symm hj]
      · have ih := imemRead_imemWrite_from (lo := k + 1) (slot := slot) w j rest hrest
        simp only [imemWrite, h1, h2, if_false, imemRead, ih]
        by_cases hj : j = slot
        · subst hj; simp [Ne.symm h2]
        · simp [hj]

/-- A read after a write to the same slot gives the word, and every other slot is left alone. -/
theorem imemRead_imemWrite (m : Imem) (slot j : Nat) (w : Word) (h : Imem.wf m = true) :
    imemRead (imemWrite m slot w) j = if j = slot then w else imemRead m j :=
  imemRead_imemWrite_from w j m h

theorem imemBelow_cons {slots k : Nat} {v : Word} {rest : Imem} :
    imemBelow slots ((k, v) :: rest) = true ↔ k < slots ∧ imemBelow slots rest = true := by
  simp [imemBelow]

/-- The bound on slots is kept by a write to a slot that exists. -/
theorem imemWrite_below {slots slot : Nat} (w : Word) (hs : slot < slots) :
    ∀ m : Imem, imemBelow slots m = true → imemBelow slots (imemWrite m slot w) = true
  | [], _ => by by_cases hw : w = 0#32 <;> simp [imemWrite, imemBelow, hw, hs]
  | (k, v) :: rest, hm => by
    have hm' := imemBelow_cons.mp hm
    have ih := imemWrite_below w hs rest hm'.2
    unfold imemWrite
    split_ifs
    · exact hm
    · exact imemBelow_cons.mpr ⟨hs, hm⟩
    · exact hm'.2
    · exact imemBelow_cons.mpr ⟨hs, hm'.2⟩
    · exact imemBelow_cons.mpr ⟨hm'.1, ih⟩

/-- The loader's memory is in canonical form from its first slot on. -/
theorem imemOfWords_canonicalFrom : ∀ (slot : Nat) (ws : List Word),
    imemCanonicalFrom slot (imemOfWords slot ws) = true
  | _, [] => rfl
  | slot, w :: ws => by
    have ih := imemOfWords_canonicalFrom (slot + 1) ws
    by_cases hw : w = 0#32
    · simpa [imemOfWords, hw] using imemCanonicalFrom_mono (by omega) _ ih
    · simp [imemOfWords, hw, imemCanonicalFrom, ih]

/-- The loader's memory is in canonical form. -/
theorem imemOfWords_wf (slot : Nat) (ws : List Word) : Imem.wf (imemOfWords slot ws) = true :=
  imemCanonicalFrom_mono (Nat.zero_le slot) _ (imemOfWords_canonicalFrom slot ws)

/-- The loader's memory lists only the slots it fills. -/
theorem imemOfWords_below {slots : Nat} : ∀ (slot : Nat) (ws : List Word), slot + ws.length ≤ slots →
    imemBelow slots (imemOfWords slot ws) = true
  | _, [], _ => rfl
  | slot, w :: ws, h => by
    have hl : slot + (ws.length + 1) ≤ slots := h
    have ih := imemOfWords_below (slots := slots) (slot + 1) ws (by omega)
    by_cases hw : w = 0#32
    · simpa [imemOfWords, hw] using ih
    · rw [imemOfWords, if_neg hw]
      exact imemBelow_cons.mpr ⟨by omega, ih⟩

end Sys2Proof.Machine
end

