-- ==== Sys2Proof/Laws/PerInstr.lean ====
section
/-! SUPPORT. A statement about every instruction as syntax, made per instruction: its word carries the selector that
the opcode map (R55) gives it. -/

namespace Sys2Proof.Laws.EncodeSelector

/-- `op` of the opcode map (R55). -/
def opSelector : Instr → BitVec 6
  | .nop | .add .. | .sll .. | .srl .. => 0x00#6
  | .addi .. => 0x08#6
  | .andi .. => 0x0C#6
  | .beq .. => 0x04#6
  | .bne .. => 0x05#6

/-- `funct` of the opcode map (R55), where the format has one. -/
def functSelector : Instr → Option (BitVec 6)
  | .nop | .sll .. => some 0x00#6
  | .add .. => some 0x20#6
  | .srl .. => some 0x02#6
  | .addi .. | .andi .. | .beq .. | .bne .. => none

/-- The word of `i` has the `op`, and for the register format the `funct`, of its row. -/
def Statement (i : Instr) : Prop :=
  opOf (encode i) = opSelector i ∧ ∀ f, functSelector i = some f → functOf (encode i) = f

theorem nop : Statement .nop := by
  refine ⟨by decide, fun f h => ?_⟩
  cases h; decide

theorem add (rs rt rd : RegIdx) (shamt : Shamt) : Statement (.add rs rt rd shamt) := by
  refine ⟨opOf_registerWord .., fun f h => ?_⟩
  cases h; exact functOf_registerWord ..

theorem sll (rs rt rd : RegIdx) (shamt : Shamt) : Statement (.sll rs rt rd shamt) := by
  refine ⟨opOf_registerWord .., fun f h => ?_⟩
  cases h; exact functOf_registerWord ..

theorem srl (rs rt rd : RegIdx) (shamt : Shamt) : Statement (.srl rs rt rd shamt) := by
  refine ⟨opOf_registerWord .., fun f h => ?_⟩
  cases h; exact functOf_registerWord ..

theorem addi (rs rt : RegIdx) (imm : Imm16) : Statement (.addi rs rt imm) :=
  ⟨opOf_immediateWord .., fun _ h => nomatch h⟩

theorem andi (rs rt : RegIdx) (imm : Imm16) : Statement (.andi rs rt imm) :=
  ⟨opOf_immediateWord .., fun _ h => nomatch h⟩

theorem beq (rs rt : RegIdx) (imm : Imm16) : Statement (.beq rs rt imm) :=
  ⟨opOf_immediateWord .., fun _ h => nomatch h⟩

theorem bne (rs rt : RegIdx) (imm : Imm16) : Statement (.bne rs rt imm) :=
  ⟨opOf_immediateWord .., fun _ h => nomatch h⟩

end Sys2Proof.Laws.EncodeSelector
end

