-- ==== Sys2Proof/Tests/Slice0.lean ====
section
/-! SUPPORT. The model's own tests. Expected values are from 95_test_vectors.md (named in each comment) or worked out
by hand from the rule named; then a named witness for the hypotheses of each statement. -/

namespace Sys2Proof.Tests
open Sys2Proof Sys2Proof.Machine

/-- A launch state with the word `w` in slot 0 and the listed registers preloaded. -/
def machine (w : Word) (pre : List (RegIdx × Word)) : State :=
  pre.foldl (fun s p => writeReg s p.1 p.2) (State.reset.withFetchWord 32 w.toNat)

/-- The state after one step, where there is one. -/
def after (s : State) : Option State :=
  match step s with
  | .next t => some t
  | .fault _ | .refused _ => none

/-- What a vector shows after one step: a register, the pc, the run state. -/
def shown (s : State) (i : RegIdx) : Option (Word × Word × RunState) :=
  (after s).map fun t => (readReg t i, t.pc, t.runState)

/-! ### WellFormed -/

/-- R59: the one ill-formed term. -/
theorem test_allZeroSll_illFormed : (Instr.sll 0 0 0 0).wellFormed = false := by decide
/-- F8: `0x00200000` is an sll. -/
theorem test_rsOnlySll_wellFormed : (Instr.sll 1 0 0 0).wellFormed = true := by decide

/-! ### Decoding: the word written out bit by bit from R46, R47, R55 -/

theorem test_decode_nop : decode 0b00000000000000000000000000000000#32 = .instr .nop := by decide
theorem test_decode_add : decode 0b000000_01001_01010_01000_00000_100000#32 = .instr (.add 9 10 8 0) := by decide
theorem test_decode_sll : decode 0b000000_00000_01001_01000_11111_000000#32 = .instr (.sll 0 9 8 31) := by decide
theorem test_decode_srl : decode 0b000000_00000_11111_11111_11111_000010#32 = .instr (.srl 0 31 31 31) := by decide
theorem test_decode_addi : decode 0b001000_01001_01000_1111111111111011#32 = .instr (.addi 9 8 0xFFFB) := by decide
theorem test_decode_andi : decode 0b001100_11111_11111_1000000000000000#32 = .instr (.andi 31 31 0x8000) := by decide
theorem test_decode_beq : decode 0b000100_01000_01001_0000000000000010#32 = .instr (.beq 8 9 2) := by decide
theorem test_decode_bne : decode 0b000101_01000_01001_1111111111111110#32 = .instr (.bne 8 9 0xFFFE) := by decide
/-- F10, F12, V-U-4. -/
theorem test_decode_unrecognised : decode 0x012A4022#32 = .unrecognisedR ∧ decode 0x04000000#32 = .unrecognisedI ∧
    decode 0x00000001#32 = .unrecognisedR := by decide
/-- E5, E12, E16, E21. -/
theorem test_encode : encode (.add 31 31 31 0) = 0x03FFF820#32 ∧ encode (.andi 31 31 0x8000) = 0x33FF8000#32 ∧
    encode (.srl 0 31 31 31) = 0x001FFFC2#32 ∧ encode (.beq 8 8 0xFFFF) = 0x1108FFFF#32 := by decide
/-- The host's numbering: F1, F10. -/
theorem test_decodeTableWord : decodeTableWord 32 0x012A4020 = some (.add 9 10 8 0) ∧
    decodeTableWord 32 0x012A4022 = none := by decide

/-! ### One step (B is 0x00400000) -/

/-- V-HALT-1. -/
theorem test_nop_halts : shown (machine 0x00000000#32 [(8, 7)]) 8 = some (7, 0x00400000, .halted) := by decide
/-- V-ADD-5: sources are read before the write. -/
theorem test_add_inPlace : shown (machine 0x01084020#32 [(8, 0x40000001)]) 8 =
    some (0x80000002, 0x00400004, .running) := by decide
/-- V-ADD-6: register 0 is writable; V-HALT-4: and this is no halt. -/
theorem test_add_registerZero : shown (machine 0x00000020#32 [(0, 7)]) 0 =
    some (0x0000000E, 0x00400004, .running) := by decide
/-- V-ADDI-3: a negative immediate wraps. -/
theorem test_addi_minusOne : shown (machine 0x2128FFFF#32 [(9, 0)]) 8 =
    some (0xFFFFFFFF, 0x00400004, .running) := by decide
/-- V-ADDI-7: both values of SEXT_BOUNDARY. -/
theorem test_addi_boundary :
    let s := machine 0x21288000#32 [(9, 0x00010000)]
    shown s 8 = some (0x00008000, 0x00400004, .running) ∧
    shown { s with cfg := { s.cfg with sextBoundary := .reference } } 8 =
      some (0x00018000, 0x00400004, .running) := by decide
/-- V-ANDI-2: the mask is zero-extended. -/
theorem test_andi_zeroExtends : shown (machine 0x3128FFFF#32 [(9, 0x12345678)]) 8 =
    some (0x00005678, 0x00400004, .running) := by decide
/-- V-SLL-1: the destination's own value, whatever `rt` holds. -/
theorem test_sll_ownValue : shown (machine 0x00094080#32 [(8, 1), (9, 0x1000)]) 8 =
    some (4, 0x00400004, .running) := by decide
/-- V-SLL-3. -/
theorem test_sll_31 : shown (machine 0x000947C0#32 [(8, 3)]) 8 = some (0x80000000, 0x00400004, .running) := by decide
/-- V-SRL-1: the destination's own value. -/
theorem test_srl_ownValue : shown (machine 0x00094082#32 [(8, 0x80000004), (9, 0xFFFF)]) 8 =
    some (0x20000001, 0x00400004, .running) := by decide
/-- V-SRL-2: zero fill. -/
theorem test_srl_zeroFill : shown (machine 0x000947C2#32 [(8, 0x80000000)]) 8 =
    some (1, 0x00400004, .running) := by decide
/-- V-B-1's word, taken from B: B + 4 + 8. -/
theorem test_beq_taken : shown (machine 0x11090002#32 [(8, 7), (9, 7)]) 8 = some (7, 0x0040000C, .running) := by decide
/-- V-B-9: all 32 bits are compared. -/
theorem test_beq_notTaken : shown (machine 0x11090002#32 [(8, 1), (9, 0x80000001)]) 8 =
    some (1, 0x00400004, .running) := by decide
/-- V-B-3's word, taken from B: B + 4 - 8. -/
theorem test_bne_takenBackward : shown (machine 0x1509FFFE#32 [(8, 1), (9, 3)]) 8 =
    some (1, 0x003FFFFC, .running) := by decide
/-- V-B-8: the same register twice is never taken. -/
theorem test_bne_sameRegister : shown (machine 0x15080005#32 [(8, 5)]) 8 = some (5, 0x00400004, .running) := by decide
/-- V-U-7 and V-U-2: unrecognised words do nothing and go on. -/
theorem test_unrecognised_advance :
    shown (machine 0x3C081234#32 [(8, 9)]) 8 = some (9, 0x00400004, .running) ∧
    shown (machine 0x012A4022#32 [(8, 9)]) 8 = some (9, 0x00400004, .running) := by decide
/-- V-F-2's second step: B - 8 is outside the window; only the run state changes. -/
theorem test_fetch_outOfRange : shown { machine 0x00000020#32 [(8, 2)] with pc := 0x003FFFF8#32 } 8 =
    some (2, 0x003FFFF8, .faulted) := by decide
/-- V-F-3: the last slot of a window that ends at the top of the address space, and the address after it. -/
theorem test_fetch_wrappingWindow :
    let c : Config := { baseTextAddr := 0xFFFFFFF0#32, imemSlots := 4, sextBoundary := .contract }
    inWindow c 0xFFFFFFFC#32 = true ∧ slotOf c 0xFFFFFFFC#32 = 3 ∧ inWindow c 0x00000000#32 = false := by decide
/-- V-HALT-3 and V-F-5: no step is taken. -/
theorem test_stopped_idle :
    after { machine 0x01084020#32 [(8, 3)] with runState := .halted } =
      some { machine 0x01084020#32 [(8, 3)] with runState := .halted } ∧
    after { machine 0x01084020#32 [(8, 3)] with runState := .faulted } =
      some { machine 0x01084020#32 [(8, 3)] with runState := .faulted } := by decide

/-! ### Host, memory -/

/-- V-R-1: from Halted, registers 0 and 8 changed. -/
theorem test_reset : hostReset { machine 0x01084020#32 [(0, 5), (8, 3)] with runState := .halted, pc := 0x00400008#32 } =
    machine 0x01084020#32 [] := by decide
/-- R44: unwritten slots hold zero, and writing zero unlists a slot. -/
theorem test_imem_write : imemWrite (imemWrite [(2, 7#32)] 1 5#32) 2 0#32 = [(1, 5#32)] ∧
    imemRead [(1, 5#32)] 2 = 0#32 := by decide
/-- R133, U8: a host write while Running is refused. -/
theorem test_hostWrite_running : hostWriteSlot 0 1#32 State.reset = .error .imemWriteDuringRun := rfl
/-- R113, P6: a branch to self is back at the base address after its first step, and no preload is accepted there. -/
theorem test_preload_midRun :
    let h : HostSession := { core := machine 0x1108FFFF#32 [], started := false }
    (∃ k, hostPreload 8 5#32 h = .ok k) ∧
    ∃ k, sessionStep h = .next k ∧ isLaunch k.core = true ∧ hostPreload 8 5#32 k = .error .preloadDuringRun :=
  ⟨⟨_, rfl⟩, _, rfl, by decide, by decide⟩
/-- R6, R137: without a bound, the zero word's run is reported after its one step, and no run as unfinished. -/
theorem test_harness_unbounded :
    HarnessReports MaxSteps.default (machine 0x00000000#32 [])
      (.finished (machine 0x00000000#32 []).regs 0x00400000#32) ∧
    ¬HarnessReports MaxSteps.default (machine 0x00000000#32 []) .didNotFinish :=
  ⟨⟨by decide, 1, rfl⟩, fun h => h.1 rfl⟩
/-- R19, N4: no word outside the window, and no fetch address once the core has stopped. -/
theorem test_fetchSignals :
    let s := machine 0x012A4020#32 []
    imemWord s = some 0x012A4020#32 ∧ imemOob s = some false ∧
    imemWord { s with pc := 0x00800000#32 } = none ∧ imemOob { s with pc := 0x00800000#32 } = some true ∧
    imemAddr { s with runState := .halted } = none := by
  refine ⟨rfl, ?_, rfl, ?_, ?_⟩ <;> decide
/-- P6 under a bound: an endless branch does not finish. -/
theorem test_harness_bound : harnessRun 3 (machine 0x1108FFFF#32 []) = .didNotFinish := by decide

/-! ### Assembler (95_test_vectors.md sections 2.1 and 2.2) -/

def params : AsmParams := { lineBound := 80, numbering := .mips }

/-- `$t0`, `$t1`, `$t2`. -/
def t0 : Token := ['$', 't', '0']
def t1 : Token := ['$', 't', '1']
def t2 : Token := ['$', 't', '2']

/-- E2, from the line itself, with blanks and with commas (C5). -/
theorem test_asm_add :
    let line := ['a', 'd', 'd', ' ', '$', 't', '0', ',', '$', 't', '1', ',', ' ', '$', 't', '2']
    assemble params [line] = some [0x012A4020#32] := by decide
/-- P1: `loop: addi $t0 $t0 1`, `bne $t0 $t1 loop`. -/
theorem test_asm_loop :
    assemble params [
      ['l', 'p', ':', ' ', 'a', 'd', 'd', 'i', ' ', '$', 't', '0', ' ', '$', 't', '0', ' ', '1'],
      ['b', 'n', 'e', ' ', '$', 't', '0', ' ', '$', 't', '1', ' ', 'l', 'p']] =
    some [0x21080001#32, 0x1509FFFE#32] := by decide
/-- E6, E9, E13. -/
theorem test_asm_immediates :
    encodeThree .mips [] 0 .addi t0 t1 ['-', '5'] = .ok 0x2128FFFB#32 ∧
    encodeThree .mips [] 0 .addi t0 t0 ['-', '3', '2', '7', '6', '8'] = .ok 0x21088000#32 ∧
    encodeThree .mips [] 0 .sll t0 t1 ['2'] = .ok 0x00094080#32 := by
  refine ⟨?_, ?_, ?_⟩ <;> rfl
/-- A1, A3, A4, A5. -/
theorem test_asm_ranges :
    encodeThree .mips [] 0 .addi t0 t1 ['3', '2', '7', '6', '8'] = .error .immediateOutOfRange ∧
    encodeThree .mips [] 0 .andi t0 t1 ['6', '5', '5', '3', '5'] = .error .immediateOutOfRange ∧
    encodeThree .mips [] 0 .sll t0 t1 ['3', '2'] = .error .shiftOutOfRange ∧
    encodeThree .mips [] 0 .srl t0 t1 ['-', '1'] = .error .shiftOutOfRange := by
  refine ⟨?_, ?_, ?_, ?_⟩ <;> rfl
/-- A6, A7, A9, A10. -/
theorem test_asm_names :
    encodeThree .mips [] 0 .add t0 ['$', '8'] t1 = .error .unknownRegister ∧
    encodeThree .mips [] 0 .add t0 ['$', 's', '8'] t1 = .error .unknownRegister ∧
    encodeLine .mips [] 0 ⟨none, ['s', 'u', 'b'], [t0, t1, t2]⟩ = .error .unknownOpcode ∧
    encodeThree .mips [none] 0 .beq t0 t0 ['x'] = .error .undefinedLabel := by
  refine ⟨?_, ?_, ?_, ?_⟩ <;> rfl
/-- R73, R74: a failing line's report names the line, the kind and the attempted encoding; a line after an unknown
opcode has none. -/
theorem test_asm_reports :
    assemblerReports Config.default params
        [['n', 'o', 'p'], ['s', 'l', 'l', ' ', '$', 't', '0', ' ', '$', 't', '1', ' ', '3', '2'], ['s', 'u', 'b'],
          ['n', 'o', 'p']] =
      [.word 0x00000000#32 0x00400000#32, .failure 1 .shiftOutOfRange (some ⟨.sll, 0x00000000#32, [t0, t1, ['3', '2']]⟩),
        .failure 2 .unknownOpcode none] := by decide
/-- Log 18, N10: a directive is read as an opcode, which is unknown; with more than four tokens the line does not parse. -/
theorem test_asm_directive :
    assembleEach params [['.', 't', 'e', 'x', 't'], ['n', 'o', 'p']] = [.error .unknownOpcode] ∧
    assembleEach params [['#', ' ', 'a', ' ', 'b', ' ', 'c', ' ', 'd']] = [.error .parseError] := by decide
/-- R61's table at its corners, and the ten names that D15 decides. -/
theorem test_asm_regNames :
    regIndex .mips ['$', 'z', 'e', 'r', 'o'] = some 0 ∧ regIndex .mips ['$', 's', '0'] = some 16 ∧
    regIndex .mips ['$', 't', '8'] = some 24 ∧ regIndex .listed ['$', 't', '8'] = some 16 ∧
    regIndex .mips ['$', 'r', 'a'] = some 31 ∧ (regNames .mips).length = 32 := by decide

/-! ### Witnesses: for each statement with hypotheses, a state and operands that meet them together -/

/-- The state all of these start from: `add $t0 $t1 $t2` at the base address, Running. -/
def w0 : State := machine 0x012A4020#32 [(9, 3), (10, 4)]
/-- A branch to self at the base address: `beq $t0 $t0 -1`, and `bne $t0 $t1 -1` on different values. -/
def wSelfBeq : State := machine 0x1108FFFF#32 []
def wSelfBne : State := machine 0x1509FFFF#32 [(8, 1)]
/-- A forward branch, taken, onto an add in slot 2. -/
def wBranch : State :=
  { machine 0x11080001#32 [] with imem := imemWrite (imemWrite [] 0 0x11080001#32) 2 0x012A4020#32 }

/-- DecodeInvertsEncode, at the least sll that is one. -/
theorem witness_wellFormed : (Instr.sll 0 1 0 0).wellFormed = true := by decide
/-- EncodeInvertsDecode. -/
theorem witness_decoded : decode 0x00200000#32 = .instr (.sll 1 0 0 0) := by decide
/-- SignedFieldReading: both sides of both boundaries. -/
theorem witness_signedField : (0x7FFF#16).toNat < 0x8000 ∧ 0x8000 ≤ (0x8000#16).toNat ∧
    (0x8000#16).toNat ≤ 0x8000 ∧ 0x8000 < (0x8001#16).toNat := by decide
/-- AcceptedImmediateReadsBack: both ends of the range. -/
theorem witness_immediateRange : ((-32768 : Int) ≤ -32768 ∧ (-32768 : Int) ≤ 32767) ∧
    ((-32768 : Int) ≤ 32767 ∧ (32767 : Int) ≤ 32767) := by decide
/-- BranchLandsOnItsLabel: S12's displacement. -/
theorem witness_label : resolveLabel [some ['l', 'p'], none] 1 ['l', 'p'] = some (-2) ∧
    (-32768 : Int) ≤ -2 ∧ (-2 : Int) ≤ 32767 := by decide
/-- BranchTargetAlignedAndInReach, at the last aligned address. -/
theorem witness_alignedPc : (0xFFFFFFFC#32 : Word).toNat % 4 = 0 := by decide
/-- SllShiftsDestinationLeft's clause on decoding, with one field not zero. -/
theorem witness_sllNotZero : ¬((0 : RegIdx) = 0 ∧ (0 : RegIdx) = 0 ∧ (0 : RegIdx) = 0 ∧ (1 : Shamt) = 0) := by decide
/-- UnrecognisedWordOnlyAdvances, each side. -/
theorem witness_unrecognised : decode 0x0000000C#32 = .unrecognisedR ∧ decode 0x8D280000#32 = .unrecognisedI := by
  decide
/-- RegisterZeroIsOrdinary's last clause. -/
theorem witness_otherDestination : (∃ t, exec (.add 9 10 8 0) w0 = .next t) ∧
    destination (.add 9 10 8 0) ≠ some 0 := ⟨⟨_, rfl⟩, by decide⟩
/-- EffectDependsOnSourcesOnly: two states that differ, outside the sources. -/
theorem witness_sameSources :
    let s' := writeReg w0 5 1#32
    w0 ≠ s' ∧ w0.cfg = s'.cfg ∧ w0.pc = s'.pc ∧ (∀ r, r ∈ sources (.add 9 10 8 0) → readReg w0 r = readReg s' r) ∧
      destination (.add 9 10 8 0) = some 8 ∧ destination (.add 9 10 8 0) ≠ some 9 := by decide
/-- SlotsAndAddressesCorrespond: legal parameters, the last slot, and an aligned address of the window. -/
theorem witness_slots : Config.default.wf ∧ 1048575 < Config.default.imemSlots ∧
    inWindow Config.default 0x007FFFFC#32 = true ∧ (0x007FFFFC#32 : Word).toNat % 4 = 0 := by decide
/-- FetchWordReadsTheSlot: the last address of the window and the first after it. -/
theorem witness_fetch :
    ((0x007FFFFC#32 : Word) - w0.cfg.baseTextAddr).toNat < 4 * w0.cfg.imemSlots ∧
    4 * w0.cfg.imemSlots ≤ ((0x00800000#32 : Word) - w0.cfg.baseTextAddr).toNat := by decide
/-- InstructionMemoryIsReadOnly: a run of two steps, and a Running core. -/
theorem witness_run : (∃ t, runSteps 2 w0 = .next t) ∧ w0.runState = .running := ⟨⟨_, rfl⟩, by decide⟩
/-- StepRunsTheDecodedInstruction; PcAdvancesUnlessTaken's second clause. -/
theorem witness_step : w0.runState = .running ∧ fetchWord w0 w0.pc = .ok 0x012A4020#32 ∧
    decode 0x012A4020#32 = .instr (.add 9 10 8 0) ∧ (0x012A4020#32 : Word) ≠ 0#32 ∧
    takenDisplacement (.add 9 10 8 0) w0 = none ∧ ∃ t, step w0 = .next t :=
  ⟨by decide, rfl, by decide, by decide, rfl, _, rfl⟩
/-- StepFaultsOrHaltsChangingOnlyRunState and ZeroWordEndsTheRun: a pc just outside the window, and a zero word. -/
theorem witness_faultAndHalt :
    let out := { w0 with pc := 0x00800000#32 }
    out.runState = .running ∧ 4 * out.cfg.imemSlots ≤ (out.pc - out.cfg.baseTextAddr).toNat ∧
    State.reset.runState = .running ∧ fetchWord State.reset State.reset.pc = .ok 0#32 :=
  ⟨by decide, by decide, by decide, rfl⟩
/-- NoBranchDelaySlot, PcAdvancesUnlessTaken's first clause: a taken branch whose target holds a word. -/
theorem witness_takenBranch : wBranch.runState = .running ∧ fetchWord wBranch wBranch.pc = .ok 0x11080001#32 ∧
    decode 0x11080001#32 = .instr (.beq 8 8 1) ∧ takenDisplacement (.beq 8 8 1) wBranch = some 1#16 ∧
    fetchWord wBranch (branchTarget wBranch.cfg.sextBoundary wBranch.pc 1#16) = .ok 0x012A4020#32 ∧
    ∃ t, step wBranch = .next t := ⟨by decide, rfl, by decide, by decide, rfl, _, rfl⟩
/-- BranchToSelfRunsForever, with beq and with bne. -/
theorem witness_branchToSelf :
    (wSelfBeq.runState = .running ∧ fetchWord wSelfBeq wSelfBeq.pc = .ok 0x1108FFFF#32 ∧
      decode 0x1108FFFF#32 = .instr (.beq 8 8 0xFFFF) ∧ takenDisplacement (.beq 8 8 0xFFFF) wSelfBeq = some 0xFFFF#16) ∧
    (wSelfBne.runState = .running ∧ fetchWord wSelfBne wSelfBne.pc = .ok 0x1509FFFF#32 ∧
      decode 0x1509FFFF#32 = .instr (.bne 8 9 0xFFFF) ∧ takenDisplacement (.bne 8 9 0xFFFF) wSelfBne = some 0xFFFF#16) :=
  ⟨⟨by decide, rfl, by decide, by decide⟩, ⟨by decide, rfl, by decide, by decide⟩⟩
/-- RunStateTransitions and StepWritesAtMostOneRegister: steps from a Running and from a stopped core, and one that
halts. -/
theorem witness_transitions : (∃ t, step w0 = .next t) ∧ w0.runState = .running ∧
    (∃ t, step State.reset = .next t ∧ t.runState ≠ .running) ∧
    ∃ t, step { w0 with runState := .halted } = .next t ∧ ({ w0 with runState := .halted } : State).runState ≠ .running :=
  ⟨⟨_, rfl⟩, by decide, ⟨_, rfl, by decide⟩, ⟨_, rfl, by decide⟩⟩
/-- HaltedAndFaultedAreAbsorbing, each. -/
theorem witness_stopped : ({ w0 with runState := .halted } : State).runState ≠ .running ∧
    ({ w0 with runState := .faulted } : State).runState ≠ .running := by decide
/-- StepKeepsWellFormed and HostMovesKeepWellFormed: a state other than reset's that meets the invariant, and its step. -/
theorem witness_wf : w0.wf ∧ (∃ t, step w0 = .next t) := ⟨by decide, _, rfl⟩
/-- PreloadOnlyAtLaunch: a launch state with no step taken, one with a step taken, and a state of another form. -/
theorem witness_preload :
    (isLaunch w0 = true ∧ ({ core := w0, started := false } : HostSession).started = false) ∧
    ({ core := w0, started := true } : HostSession).started = true ∧
    isLaunch { w0 with pc := 0x00400004#32 } = false := by decide
/-- HostCannotAlterARun's clause on a Running core: the branch to self after a step. -/
theorem witness_stillRunning : ∃ t, runSteps 1 wSelfBeq = .next t ∧ t.runState = .running := ⟨_, rfl, by decide⟩
/-- BootLoadsTheProgram, at a full memory and one word over, with two slots. -/
theorem witness_boot :
    let s := { w0 with cfg := { w0.cfg with imemSlots := 2 } }
    [1#32, 2#32].length ≤ s.cfg.imemSlots ∧ s.cfg.imemSlots < [1#32, 2#32, 3#32].length := by decide
/-- HostMovesKeepWellFormed: each move is accepted somewhere. -/
theorem witness_hostMoves :
    let stopped := { w0 with runState := .halted }
    w0.wf ∧ stopped.wf ∧ (∃ t, hostPreload 8 1#32 { core := w0, started := false } = .ok t) ∧ (∃ t, hostWriteSlot 3 1#32 stopped = .ok t) ∧
    (∃ t, bootWords [0x012A4020#32] w0.regs w0 = .ok t) ∧
    ∃ t, assembleAndBoot params [['n', 'o', 'p']] w0.regs w0 = .ok t :=
  ⟨by decide, by decide, ⟨_, rfl⟩, ⟨_, rfl⟩, ⟨_, rfl⟩, ⟨_, rfl⟩⟩
/-- AssembledWordsAreRecognised and AssemblyIsAllOrNothing: a program that assembles, and a line that fails. -/
theorem witness_assembly :
    assemble params [['n', 'o', 'p']] = some [0#32] ∧ (0#32 : Word) ∈ [0#32] ∧
    [['n', 'o', 'p']][0]? = some ['n', 'o', 'p'] ∧
    assembleLine params (labelsOf params [['n', 'o', 't']]) 0 ['n', 'o', 't'] = .error .unknownOpcode :=
  ⟨by decide, by decide, rfl, rfl⟩
/-- DiagnosticsReportEveryLine: a word after a line with no unknown opcode, a failure in the first line, and a line after
an unknown opcode. -/
theorem witness_diagnostics :
    let good : List (List Char) := [['n', 'o', 'p'], ['n', 'o', 'p']]
    let bad : List (List Char) := [['n', 'o', 't'], ['n', 'o', 'p']]
    good[1]? = some ['n', 'o', 'p'] ∧
    (∀ j line', j < 1 → good[j]? = some line' → assembleLine params (labelsOf params good) j line' ≠ .error .unknownOpcode) ∧
    assembleLine params (labelsOf params good) 1 ['n', 'o', 'p'] = .ok 0#32 ∧
    bad[0]? = some ['n', 'o', 't'] ∧ bad[1]? = some ['n', 'o', 'p'] ∧
    assembleLine params (labelsOf params bad) 0 ['n', 'o', 't'] = .error .unknownOpcode := by
  refine ⟨rfl, ?_, rfl, rfl, rfl, rfl⟩
  rintro j line' hj hl
  obtain rfl : j = 0 := by omega
  cases hl
  exact fun h => nomatch h

end Sys2Proof.Tests
end

/-! SUPPORT. Proofs about the register file: what each writing instruction stores, and what every instruction leaves
as it was. -/

namespace Sys2Proof.Machine

/-! The five writing instructions, each as the write it ends in. -/

@[simp] theorem exec_add (rs rt rd : RegIdx) (shamt : Shamt) (s : State) :
    exec (.add rs rt rd shamt) s = writeAndAdvance s rd (readReg s rs + readReg s rt) := rfl
@[simp] theorem exec_addi (rs rt : RegIdx) (imm : Imm16) (s : State) :
    exec (.addi rs rt imm) s = writeAndAdvance s rt (readReg s rs + sext32 s.cfg.sextBoundary imm) := rfl
@[simp] theorem exec_andi (rs rt : RegIdx) (imm : Imm16) (s : State) :
    exec (.andi rs rt imm) s = writeAndAdvance s rt (readReg s rs &&& zext32 imm) := rfl
@[simp] theorem exec_sll (rs rt rd : RegIdx) (shamt : Shamt) (s : State) :
    exec (.sll rs rt rd shamt) s = writeAndAdvance s rd (readReg s rd <<< shamt.toNat) := rfl
@[simp] theorem exec_srl (rs rt rd : RegIdx) (shamt : Shamt) (s : State) :
    exec (.srl rs rt rd shamt) s = writeAndAdvance s rd (readReg s rd >>> shamt.toNat) := rfl

/-- A register write completes, and the register then holds the value, whichever register it is (R11). -/
theorem writeAndAdvance_stores (s : State) (i : RegIdx) (v : Word) :
    ∃ t, writeAndAdvance s i v = .next t ∧ readReg t i = v :=
  ⟨_, rfl, by simp⟩

theorem readReg_of_writeAndAdvance_other {s t : State} {i j : RegIdx} {v : Word}
    (h : writeAndAdvance s i v = .next t) (hij : some i ≠ some j) : readReg t j = readReg s j := by
  have hji : j ≠ i := fun e => hij (congrArg some e.symm)
  rw [writeAndAdvance_next h, readReg_advance, readReg_writeReg_other s v hji]

theorem readReg_of_branchIf {s t : State} {taken : Bool} {imm : Imm16} (h : branchIf taken imm s = .next t)
    (j : RegIdx) : readReg t j = readReg s j := by
  rw [branchIf_next h]
  cases taken
  · exact readReg_advance s j
  · exact readReg_setPc s _ j

/-- An instruction changes no register but its destination (R12's table). -/
theorem exec_readReg_other {i : Instr} {s t : State} {j : RegIdx} (h : exec i s = .next t)
    (hd : destination i ≠ some j) : readReg t j = readReg s j := by
  cases i with
  | nop => cases h; exact readReg_setRunState s .halted j
  | beq | bne => exact readReg_of_branchIf h j
  | add | sll | srl | addi | andi => exact readReg_of_writeAndAdvance_other h hd

/-- Reset clears every register (R18, R125). -/
@[simp] theorem readReg_hostReset (s : State) (j : RegIdx) : readReg (hostReset s) j = 0#32 := by
  simp [readReg, hostReset]

/-- Settles O24: register 0 is stored to by the lemma that holds of every register, and kept by the frame of `exec`. -/
theorem registerZeroIsOrdinary : Obligations.RegisterZeroIsOrdinary := by
  intro s rs rt shamt imm
  simp only [exec_add, exec_addi, exec_andi, exec_sll, exec_srl]
  exact ⟨writeAndAdvance_stores s 0 _, writeAndAdvance_stores s 0 _, writeAndAdvance_stores s 0 _,
    writeAndAdvance_stores s 0 _, writeAndAdvance_stores s 0 _, readReg_hostReset s 0,
    fun _ _ => exec_readReg_other⟩

end Sys2Proof.Machine

/-! SUPPORT. Proofs about instruction memory: the addresses of its slots (R31), and that no run writes it (R42). -/

namespace Sys2Proof.Machine

/-! The window: the offset of an address from the base, and what it says of the slot. -/

theorem inWindow_iff (c : Config) (a : Word) : inWindow c a = true ↔ windowOffset c a < 4 * c.imemSlots :=
  decide_eq_true_iff

/-- The offset is the difference of the addresses modulo 2^32, also where the window wraps around. -/
theorem windowOffset_eq_emod (c : Config) (a : Word) :
    (windowOffset c a : Int) = ((a.toNat : Int) - c.baseTextAddr.toNat) % 2 ^ 32 := by
  have := a.isLt
  rw [windowOffset, BitVec.toNat_sub]
  omega

/-- Below 2^30 slots no slot's offset wraps around, which is why R6 bounds the capacity. -/
theorem windowOffset_slotAddr (c : Config) {i : Nat} (hi : i < 2 ^ 30) : windowOffset c (slotAddr c i) = 4 * i := by
  rw [windowOffset, slotAddr, BitVec.add_comm, BitVec.add_sub_cancel, BitVec.toNat_ofNat]
  omega

/-- The base is aligned and 4 divides 2^32, so an aligned address has an aligned offset (R31, R34). -/
theorem windowOffset_aligned {c : Config} {a : Word} (hc : c.baseTextAddr.toNat % 4 = 0) (ha : a.toNat % 4 = 0) :
    windowOffset c a % 4 = 0 := by
  rw [windowOffset, BitVec.toNat_sub]
  omega

/-- Going back from the slot to the address loses nothing when the division by 4 is exact. -/
theorem slotAddr_slotOf {c : Config} {a : Word} (h : windowOffset c a % 4 = 0) : slotAddr c (slotOf c a) = a := by
  have h4 : 4 * slotOf c a = windowOffset c a := Nat.mul_div_cancel' (Nat.dvd_of_mod_eq_zero h)
  rw [slotAddr, h4, windowOffset, BitVec.ofNat_toNat, BitVec.setWidth_eq, BitVec.add_comm, BitVec.sub_add_cancel]

theorem slotOf_lt_imemSlots {c : Config} {a : Word} (h : inWindow c a = true) : slotOf c a < c.imemSlots :=
  Nat.div_lt_of_lt_mul ((inWindow_iff c a).mp h)

/-- Settles O27: both directions go through the offset, which is `4 * i` for slot `i` and aligned for an aligned
address. -/
theorem slotsAndAddressesCorrespond : Obligations.SlotsAndAddressesCorrespond := by
  rintro c ⟨hbase, -, hslots⟩
  refine ⟨fun i hi => ?_, fun a => ⟨?_, fun hw ha => ?_⟩⟩
  · have hoff := windowOffset_slotAddr c (hi.trans_le hslots)
    exact ⟨(inWindow_iff c _).mpr (by omega), by rw [slotOf, hoff]; omega⟩
  · rw [inWindow_iff, ← windowOffset_eq_emod]
    omega
  · exact ⟨slotOf_lt_imemSlots hw, slotAddr_slotOf (windowOffset_aligned hbase ha)⟩

/-! Runs: what every step keeps, a run keeps; and no step writes instruction memory or the parameters. -/

/-- A property that every step keeps holds at the end of a run of any length. -/
theorem runSteps_keeps {P : State → Prop} (hstep : ∀ s t, step s = .next t → P s → P t) {n : Nat} {s t : State}
    (h : runSteps n s = .next t) (hs : P s) : P t := by
  induction n generalizing s with
  | zero => cases h; exact hs
  | succ n ih =>
    obtain ⟨u, hu⟩ := step_eq_next s
    rw [runSteps_succ n hu] at h
    exact ih h (hstep s u hu hs)

theorem execDecoded_imem_cfg {d : Decoded} {s t : State} (h : execDecoded d s = .next t) :
    t.imem = s.imem ∧ t.cfg = s.cfg := by
  obtain ⟨-, rfl⟩ | ⟨i, v, rfl⟩ | ⟨imm, rfl⟩ | rfl := execDecoded_cases h <;> simp

/-- No step writes instruction memory (R16, R42) or the parameters (R6, log 1). -/
theorem step_imem_cfg {s t : State} (h : step s = .next t) : t.imem = s.imem ∧ t.cfg = s.cfg := by
  obtain ⟨-, rfl⟩ | ⟨-, -, rfl⟩ | ⟨-, -, hd⟩ := step_cases h
  · exact ⟨rfl, rfl⟩
  · simp
  · exact execDecoded_imem_cfg hd

theorem runSteps_imem_cfg {n : Nat} {s t : State} (h : runSteps n s = .next t) : t.imem = s.imem ∧ t.cfg = s.cfg :=
  runSteps_keeps (P := fun u => u.imem = s.imem ∧ u.cfg = s.cfg)
    (fun _ _ hu ⟨hi, hc⟩ => (step_imem_cfg hu).imp (·.trans hi) (·.trans hc)) h ⟨rfl, rfl⟩

/-- A fetch depends on nothing but instruction memory and the parameters. -/
theorem fetchWord_congr {s t : State} (hi : t.imem = s.imem) (hc : t.cfg = s.cfg) (a : Word) :
    fetchWord t a = fetchWord s a := by
  simp only [fetchWord, hi, hc]

/-- Settles O29: a run keeps instruction memory and the parameters because each step does, and these two are all that a
fetch reads; the host's write port tests for a Running core first. -/
theorem instructionMemoryIsReadOnly : Obligations.InstructionMemoryIsReadOnly := by
  refine ⟨fun n s t h => ?_, fun s slot w hr => if_pos hr⟩
  obtain ⟨hi, hc⟩ := runSteps_imem_cfg h
  exact ⟨hi, hc, fetchWord_congr hi hc⟩

end Sys2Proof.Machine

/-! SUPPORT. Proofs about the encoding: where the fields of a word stand (R46, R47, R49), that decoding is the inverse
of encoding on the well-formed instructions (R59, R75), and the opcode map by mask and match (R55). -/

namespace Sys2Proof

/-- Settles O1: the mask `2^width - 1` is the remainder by `2^width`; each field is then `unpack` at its place. -/
theorem fieldIsShiftedAndMasked : Obligations.FieldIsShiftedAndMasked := by
  intro w
  have hw := w.isLt
  refine ⟨fun offset width => ?_, ?_, unpack_toNat w 21 5, unpack_toNat w 16 5, unpack_toNat w 11 5,
    unpack_toNat w 6 5, ?_, ?_⟩
  · rw [unpack_toNat, Nat.and_two_pow_sub_one_eq_mod, Nat.shiftRight_eq_div_pow]
  · rw [opOf, unpack_toNat]; omega
  · rw [functOf, unpack_toNat]; omega
  · rw [immOf, unpack_toNat]; omega

/-! The decoder on the words the encoder builds. -/

theorem registerWord_eq_zero_iff {rs rt rd : RegIdx} {shamt : Shamt} {funct : BitVec 6} :
    registerWord rs rt rd shamt funct = 0#32 ↔ rs = 0 ∧ rt = 0 ∧ rd = 0 ∧ shamt = 0 ∧ funct = 0#6 := by
  simp only [← BitVec.toNat_inj, registerWord_toNat, BitVec.ofNat_eq_ofNat, BitVec.toNat_ofNat]
  omega

theorem decode_of_opOf_eq_zero {w : Word} (hw : w ≠ 0#32) (hop : opOf w = 0#6) :
    decode w = decodeRegisterFormat w := by
  rw [decode, if_neg hw, if_pos hop]

/-- The zero test of R56 needs no mention here: the zero word has `op` 0. -/
theorem decode_of_opOf_ne_zero {w : Word} (hop : opOf w ≠ 0#6) : decode w = decodeImmediateFormat w := by
  have hw : w ≠ 0#32 := fun h => hop (by rw [h]; rfl)
  rw [decode, if_neg hw, if_neg hop]

theorem decode_registerWord {rs rt rd : RegIdx} {shamt : Shamt} {funct : BitVec 6}
    (h : registerWord rs rt rd shamt funct ≠ 0#32) :
    decode (registerWord rs rt rd shamt funct) =
      if funct = 0x20#6 then .instr (.add rs rt rd shamt)
      else if funct = 0x00#6 then .instr (.sll rs rt rd shamt)
      else if funct = 0x02#6 then .instr (.srl rs rt rd shamt)
      else .unrecognisedR := by
  rw [decode_of_opOf_eq_zero h (opOf_registerWord ..), decodeRegisterFormat, functOf_registerWord, rsOf_registerWord,
    rtOf_registerWord, rdOf_registerWord, shamtOf_registerWord]

theorem decode_immediateWord {op : BitVec 6} (rs rt : RegIdx) (imm : Imm16) (h : op ≠ 0#6) :
    decode (immediateWord op rs rt imm) =
      if op = 0x08#6 then .instr (.addi rs rt imm)
      else if op = 0x0C#6 then .instr (.andi rs rt imm)
      else if op = 0x04#6 then .instr (.beq rs rt imm)
      else if op = 0x05#6 then .instr (.bne rs rt imm)
      else .unrecognisedI := by
  have hop := opOf_immediateWord op rs rt imm
  rw [decode_of_opOf_ne_zero (by rwa [hop]), decodeImmediateFormat, hop, rsOf_immediateWord, rtOf_immediateWord,
    immOf_immediateWord]

/-- The all-zero sll is the one ill-formed term because it is the one term besides `nop` whose word is zero (R59). -/
theorem wellFormed_sll_iff {rs rt rd : RegIdx} {shamt : Shamt} :
    (Instr.sll rs rt rd shamt).wellFormed = true ↔ registerWord rs rt rd shamt 0x00#6 ≠ 0#32 := by
  rw [Ne, registerWord_eq_zero_iff]
  simp [Instr.wellFormed, imp_iff_not_or, or_assoc]

theorem decode_encode {i : Instr} (h : i.wellFormed = true) : decode (encode i) = .instr i := by
  cases i with
  | nop => rfl
  | sll => exact decode_registerWord (wellFormed_sll_iff.mp h)
  | add | srl => exact decode_registerWord (by simp [registerWord_eq_zero_iff])
  | addi | andi | beq | bne => exact decode_immediateWord _ _ _ (by decide)

/-! The words of a decoded instruction: each branch of the decoder names the selector of the word it reads. -/

theorem encode_of_decodeRegisterFormat {w : Word} {i : Instr} (hop : opOf w = 0#6)
    (h : decodeRegisterFormat w = .instr i) : encode i = w := by
  have hw := registerWord_of_fields w hop
  unfold decodeRegisterFormat at h
  split_ifs at h with hf hf hf <;> cases h <;> rwa [hf] at hw

theorem encode_of_decodeImmediateFormat {w : Word} {i : Instr} (h : decodeImmediateFormat w = .instr i) :
    encode i = w := by
  have hw := immediateWord_of_fields w
  unfold decodeImmediateFormat at h
  split_ifs at h with hop hop hop hop <;> cases h <;> rwa [hop] at hw

theorem encode_of_decode {w : Word} {i : Instr} (h : decode w = .instr i) : encode i = w := by
  by_cases hw : w = 0#32
  · rw [decode, if_pos hw] at h
    cases h; exact hw.symm
  by_cases hop : opOf w = 0#6
  · rw [decode_of_opOf_eq_zero hw hop] at h
    exact encode_of_decodeRegisterFormat hop h
  · rw [decode_of_opOf_ne_zero hop] at h
    exact encode_of_decodeImmediateFormat h

/-- The zero test comes first (R56), so no word is read as the all-zero sll. -/
theorem wellFormed_of_decode {w : Word} {i : Instr} (h : decode w = .instr i) : i.wellFormed = true := by
  have henc := encode_of_decode h
  cases i with
  | sll rs rt rd shamt =>
    rw [wellFormed_sll_iff]
    intro hzero
    rw [← henc, encode, hzero] at h
    cases h
  | nop | add | srl | addi | andi | beq | bne => rfl

/-- What a word decodes to, said through the encoder. -/
theorem decode_eq_instr_iff {w : Word} {i : Instr} : decode w = .instr i ↔ encode i = w ∧ i.wellFormed = true :=
  ⟨fun h => ⟨encode_of_decode h, wellFormed_of_decode h⟩, fun ⟨henc, hwf⟩ => henc ▸ decode_encode hwf⟩

/-! Masks and matches (R55): a row's match is the word of its selector with every operand zero, and its mask keeps the
selector and clears the operands. -/

/-- A field of a masked word is the word's field under the mask's. -/
theorem unpack_and (v w : Word) (offset width : Nat) :
    unpack (v &&& w) offset width = unpack v offset width &&& unpack w offset width := BitVec.extractLsb'_and

/-- The mask's `op` is all ones and its other fields are zero. -/
theorem and_opMask (w : Word) : w &&& 0xFC000000#32 = immediateWord (opOf w) 0 0 0 := by
  rw [← immediateWord_of_fields (w &&& 0xFC000000#32)]
  simp only [opOf, rsOf, rtOf, immOf, unpack_and]
  congr 1
  · exact BitVec.and_allOnes
  all_goals exact BitVec.and_zero

theorem opOf_and_selectorMask (w : Word) : opOf (w &&& 0xFC00003F#32) = opOf w :=
  (unpack_and w _ 26 6).trans BitVec.and_allOnes

/-- The mask's `op` and `funct` are all ones and its other fields are zero. -/
theorem and_selectorMask {w : Word} (hop : opOf w = 0#6) :
    w &&& 0xFC00003F#32 = registerWord 0 0 0 0 (functOf w) := by
  rw [← registerWord_of_fields (w &&& 0xFC00003F#32) ((opOf_and_selectorMask w).trans hop)]
  simp only [rsOf, rtOf, rdOf, shamtOf, functOf, unpack_and]
  congr 1
  case e_funct => exact BitVec.and_allOnes
  all_goals exact BitVec.and_zero

theorem exists_immediateWord_iff {w : Word} {op : BitVec 6} :
    (∃ rs rt imm, immediateWord op rs rt imm = w) ↔ w &&& 0xFC000000#32 = immediateWord op 0 0 0 := by
  rw [and_opMask]
  constructor
  · rintro ⟨rs, rt, imm, rfl⟩
    rw [opOf_immediateWord]
  · intro h
    have hop : opOf w = op := by rw [← opOf_immediateWord (opOf w) 0 0 0, h, opOf_immediateWord]
    exact ⟨_, _, _, hop ▸ immediateWord_of_fields w⟩

theorem exists_registerWord_iff {w : Word} {funct : BitVec 6} :
    (∃ rs rt rd shamt, registerWord rs rt rd shamt funct = w) ↔
      w &&& 0xFC00003F#32 = registerWord 0 0 0 0 funct := by
  constructor
  · rintro ⟨rs, rt, rd, shamt, rfl⟩
    rw [and_selectorMask (opOf_registerWord ..), functOf_registerWord]
  · intro h
    have hop : opOf w = 0#6 := by rw [← opOf_and_selectorMask, h, opOf_registerWord]
    have hfunct : functOf w = funct := by
      rw [← functOf_registerWord 0 0 0 0 (functOf w), ← and_selectorMask hop, h, functOf_registerWord]
    exact ⟨_, _, _, _, hfunct ▸ registerWord_of_fields w hop⟩

theorem exists_decode_sll_iff {w : Word} :
    (∃ rs rt rd shamt, decode w = .instr (.sll rs rt rd shamt)) ↔
      (∃ rs rt rd shamt, registerWord rs rt rd shamt 0x00#6 = w) ∧ w ≠ 0#32 := by
  constructor
  · rintro ⟨rs, rt, rd, shamt, h⟩
    obtain ⟨rfl, hwf⟩ := decode_eq_instr_iff.mp h
    exact ⟨⟨rs, rt, rd, shamt, rfl⟩, wellFormed_sll_iff.mp hwf⟩
  · rintro ⟨⟨rs, rt, rd, shamt, rfl⟩, hne⟩
    exact ⟨rs, rt, rd, shamt, decode_encode (wellFormed_sll_iff.mpr hne)⟩

/-- Settles O4: a row's words are those the encoder builds from its selector, and these are the words with the row's
match under its mask; the zero word is no word of the sll row but `nop`. -/
theorem decodeFollowsMaskAndMatch : Obligations.DecodeFollowsMaskAndMatch := by
  intro w
  rw [exists_decode_sll_iff]
  simp only [decode_eq_instr_iff, encode, Instr.wellFormed, and_true]
  have hall : w &&& 0xFFFFFFFF#32 = w := BitVec.and_allOnes
  exact ⟨by rw [hall]; exact eq_comm,
    exists_registerWord_iff, and_congr_left' exists_registerWord_iff, exists_registerWord_iff,
    exists_immediateWord_iff, exists_immediateWord_iff, exists_immediateWord_iff, exists_immediateWord_iff⟩

end Sys2Proof

/-! SUPPORT. Proofs about the branch target: the model's one formula on integers (R103) in 32-bit terms (R54). -/

namespace Sys2Proof.Machine

theorem toNat_ofInt_32 (i : Int) : ((BitVec.ofInt 32 i).toNat : Int) = i % 2 ^ 32 := by
  rw [BitVec.toNat_ofInt]
  omega

/-- The word of the signed reading is the reading modulo 2^32 (R52). -/
theorem sext32_toNat (b : SextBoundary) (v : Imm16) : ((sext32 b v).toNat : Int) = sextInt b v % 2 ^ 32 :=
  toNat_ofInt_32 _

theorem branchTarget_toNat (b : SextBoundary) (pc : Word) (imm : Imm16) :
    ((branchTarget b pc imm).toNat : Int) = ((pc.toNat : Int) + 4 + 4 * sextInt b imm) % 2 ^ 32 :=
  toNat_ofInt_32 _

/-- Shifting the 32-bit reading left by 2 is multiplying by 4 modulo 2^32, so it agrees with the integer formula. -/
theorem branchTarget_eq_add_shiftLeft (b : SextBoundary) (pc : Word) (imm : Imm16) :
    branchTarget b pc imm = pc + 4#32 + (sext32 b imm <<< 2) := by
  have htarget := branchTarget_toNat b pc imm
  have hsext := sext32_toNat b imm
  apply BitVec.eq_of_toNat_eq
  rw [BitVec.toNat_add, BitVec.toNat_add, BitVec.toNat_ofNat, BitVec.toNat_shiftLeft, Nat.shiftLeft_eq]
  omega

/-- Settles O11: the 32-bit form is the integer form because both sides agree modulo 2^32. -/
theorem branchTargetInWordTerms : Obligations.BranchTargetInWordTerms :=
  fun b pc imm => ⟨branchTarget_toNat b pc imm, branchTarget_eq_add_shiftLeft b pc imm⟩

end Sys2Proof.Machine

/-! SUPPORT. Proofs about the pc at the end of a step (R84): the branch target for a taken branch, the default advance
for every other word but the zero word. -/

namespace Sys2Proof.Machine

theorem pc_of_writeAndAdvance {s t : State} {i : RegIdx} {v : Word} (h : writeAndAdvance s i v = .next t) :
    t.pc = s.pc + 4#32 := by
  rw [writeAndAdvance_next h, advance_pc, writeReg_pc]

theorem pc_of_branchIf {s t : State} {taken : Bool} {imm : Imm16} (h : branchIf taken imm s = .next t) :
    t.pc = if taken then branchTarget s.cfg.sextBoundary s.pc imm else s.pc + 4#32 := by
  rw [branchIf_next h, apply_ite State.pc, setPc_pc, advance_pc]

/-- Where every instruction but `nop` leaves the pc: only a branch whose condition holds redirects it (R84, R103). -/
theorem pc_of_exec {i : Instr} {s t : State} (hi : i ≠ .nop) (h : exec i s = .next t) :
    t.pc = (takenDisplacement i s).elim (s.pc + 4#32) (branchTarget s.cfg.sextBoundary s.pc) := by
  cases i with
  | nop => exact absurd rfl hi
  | add | sll | srl | addi | andi => exact pc_of_writeAndAdvance h
  | beq rs rt imm | bne rs rt imm =>
    rw [pc_of_branchIf h]
    by_cases heq : readReg s rs = readReg s rt <;> simp [takenDisplacement, regsEqual, heq]

/-- The zero word is the one word read as `nop` (R56, R59). -/
theorem ne_nop_of_decode {w : Word} {i : Instr} (hw : w ≠ 0#32) (h : decode w = .instr i) : i ≠ .nop := by
  rintro rfl
  exact hw (encode_of_decode h).symm

/-- Settles O32: a word other than zero is either unrecognised, and advances, or an instruction other than `nop`, and
leaves the pc where `pc_of_exec` says. -/
theorem pcAdvancesUnlessTaken : Obligations.PcAdvancesUnlessTaken := by
  intro s t w hr hf hw hstep
  rw [step_running_ok hr hf] at hstep
  cases hd : decode w with
  | unrecognisedR | unrecognisedI =>
    rw [hd] at hstep
    cases hstep
    exact ⟨fun _ _ hi => (nomatch hi), fun _ => advance_pc s⟩
  | instr i =>
    rw [hd] at hstep
    have hpc := pc_of_exec (ne_nop_of_decode hw hd) hstep
    constructor
    · rintro imm _ ⟨⟩ htaken
      rwa [htaken] at hpc
    · intro hnone
      rwa [hnone i rfl] at hpc

end Sys2Proof.Machine

/-! SUPPORT. Proofs about add and addi (41_arithmetic.md): the value on integers modulo 2^32, and the frame of the write
that both end in. -/

namespace Sys2Proof.Machine

/-- The whole effect of an instruction that writes a register: the write, the default advance, and nothing else (R21,
R84). -/
theorem writeAndAdvance_writesOnly (s : State) (i : RegIdx) (v : Word) :
    ∃ t, writeAndAdvance s i v = .next t ∧ WritesOnly s t i v (s.pc + 4#32) :=
  ⟨advance (writeReg s i v), rfl, readReg_writeReg_same s i v, fun _ => readReg_writeReg_other s v,
    rfl, rfl, fun _ => rfl, rfl, rfl⟩

/-- Adding the word of the signed reading is adding the reading itself, modulo 2^32 (R52, R91). -/
theorem add_sext32 (w : Word) (b : SextBoundary) (v : Imm16) :
    w + sext32 b v = BitVec.ofInt 32 (w.toNat + sextInt b v) := by
  rw [BitVec.ofInt_add, BitVec.ofInt_natCast, BitVec.ofNat_toNat, BitVec.setWidth_eq, sext32]

/-- Settles O14: the word is the encoder's, and the sum of two words is the sum of their values modulo 2^32. -/
theorem addWritesSum : Obligations.AddWritesSum := by
  intro s rs rt rd shamt
  rw [exec_add, BitVec.add_def (readReg s rs)]
  exact ⟨decode_encode (i := .add rs rt rd shamt) rfl, writeAndAdvance_writesOnly s rd _⟩

/-- Settles O15: the word is the encoder's, and the 32-bit sum is the integer sum by `add_sext32`. -/
theorem addiWritesSumWithSignedImmediate : Obligations.AddiWritesSumWithSignedImmediate := by
  intro s rs rt imm
  rw [exec_addi, add_sext32]
  exact ⟨decode_encode (i := .addi rs rt imm) rfl, writeAndAdvance_writesOnly s rt _⟩

end Sys2Proof.Machine

/-! SUPPORT. Proofs about andi, sll and srl (42_logic_shift.md): the value on naturals; the frame is the one of
`writeAndAdvance_writesOnly`. -/

namespace Sys2Proof.Machine

theorem zext32_eq_ofNat (v : Imm16) : zext32 v = BitVec.ofNat 32 v.toNat := (BitVec.ofNat_toNat 32 v).symm

/-- The mask of R95 has no bit above the immediate's 16, whatever the masked word holds. -/
theorem and_zext32_toNat_lt (w : Word) (v : Imm16) : (w &&& zext32 v).toNat < 2 ^ 16 := by
  have hmask : (zext32 v).toNat < 2 ^ 16 := by
    rw [zext32, BitVec.zeroExtend, BitVec.toNat_setWidth_of_le (by decide)]
    exact v.isLt
  rw [BitVec.toNat_and]
  exact Nat.and_lt_two_pow w.toNat hmask

/-- The bits shifted out at the top are lost, so the shift is the product modulo 2^32 (R97). -/
theorem shiftLeft_eq_ofNat_mul (w : Word) (n : Nat) : w <<< n = BitVec.ofNat 32 (w.toNat * 2 ^ n) := by
  apply BitVec.eq_of_toNat_eq
  rw [BitVec.toNat_shiftLeft, BitVec.toNat_ofNat, Nat.shiftLeft_eq]

/-- Zero fill makes the shift the floored quotient (R98). -/
theorem ushiftRight_eq_ofNat_div (w : Word) (n : Nat) : w >>> n = BitVec.ofNat 32 (w.toNat / 2 ^ n) := by
  rw [← Nat.shiftRight_eq_div_pow, ← BitVec.toNat_ushiftRight, BitVec.ofNat_toNat, BitVec.setWidth_eq]

/-- Settles O16: the word is the encoder's, and the register written holds the masked word, which is below 2^16. -/
theorem andiMasksWithZeroExtendedImmediate : Obligations.AndiMasksWithZeroExtendedImmediate := by
  intro s rs rt imm
  obtain ⟨t, ht, hreg, hframe⟩ := writeAndAdvance_writesOnly s rt (readReg s rs &&& zext32 imm)
  have hupper : (readReg t rt).toNat < 2 ^ 16 := by
    rw [hreg]
    exact and_zext32_toNat_lt (readReg s rs) imm
  rw [exec_andi, ← zext32_eq_ofNat]
  exact ⟨decode_encode (i := .andi rs rt imm) rfl, t, ht, ⟨hreg, hframe⟩, hupper⟩

/-- Settles O17: the word is the encoder's for every well-formed sll, which only the all-zero one is not (R59). -/
theorem sllShiftsDestinationLeft : Obligations.SllShiftsDestinationLeft := by
  intro s rs rt rd shamt
  have hdecode (hfields : ¬(rs = 0 ∧ rt = 0 ∧ rd = 0 ∧ shamt = 0)) :
      decode (encode (.sll rs rt rd shamt)) = .instr (.sll rs rt rd shamt) := by
    refine decode_encode (wellFormed_sll_iff.mpr fun hzero => hfields ?_)
    obtain ⟨hrs, hrt, hrd, hshamt, -⟩ := registerWord_eq_zero_iff.mp hzero
    exact ⟨hrs, hrt, hrd, hshamt⟩
  rw [exec_sll, shiftLeft_eq_ofNat_mul]
  exact ⟨hdecode, writeAndAdvance_writesOnly s rd _⟩

/-- Settles O18: the word is the encoder's, and the zero-filled shift is the quotient by `ushiftRight_eq_ofNat_div`. -/
theorem srlShiftsDestinationRight : Obligations.SrlShiftsDestinationRight := by
  intro s rs rt rd shamt
  rw [exec_srl, ushiftRight_eq_ofNat_div]
  exact ⟨decode_encode (i := .srl rs rt rd shamt) rfl, writeAndAdvance_writesOnly s rd _⟩

end Sys2Proof.Machine

/-! SUPPORT. Proofs about beq and bne (43_branch.md): each is one write of the pc, and the next fetch is at the address
written, so there is no delay slot (R102). -/

namespace Sys2Proof.Machine

/-- A write of the pc changes the pc and nothing else. -/
theorem setPc_movesOnly (s : State) (a : Word) : MovesOnly s (setPc s a) a :=
  ⟨readReg_setPc s a, setPc_pc s a, rfl, fun _ => rfl, rfl, rfl⟩

/-- Taken or not, a branch is one write of the pc (R103). -/
theorem branchIf_eq_setPc (s : State) (taken : Bool) (imm : Imm16) :
    branchIf taken imm s =
      .next (setPc s (if taken then branchTarget s.cfg.sextBoundary s.pc imm else s.pc + 4#32)) := by
  cases taken <;> rfl

theorem exec_beq (s : State) (rs rt : RegIdx) (imm : Imm16) :
    exec (.beq rs rt imm) s = .next (setPc s
      (if readReg s rs = readReg s rt then branchTarget s.cfg.sextBoundary s.pc imm else s.pc + 4#32)) := by
  rw [exec, execBeq, branchIf_eq_setPc]
  simp only [regsEqual, decide_eq_true_eq]

theorem exec_bne (s : State) (rs rt : RegIdx) (imm : Imm16) :
    exec (.bne rs rt imm) s = .next (setPc s
      (if readReg s rs ≠ readReg s rt then branchTarget s.cfg.sextBoundary s.pc imm else s.pc + 4#32)) := by
  rw [exec, execBne, branchIf_eq_setPc]
  simp only [regsEqual, Bool.not_eq_true', decide_eq_false_iff_not, ne_eq]

/-- A taken branch, beq or bne, writes its target to the pc (R100, R101). -/
theorem exec_of_takenDisplacement {i : Instr} {s : State} {imm : Imm16} (h : takenDisplacement i s = some imm) :
    exec i s = .next (setPc s (branchTarget s.cfg.sextBoundary s.pc imm)) := by
  cases i with
  | nop | add | sll | srl | addi | andi => cases h
  | beq rs rt disp =>
    obtain ⟨heq, rfl⟩ : readReg s rs = readReg s rt ∧ disp = imm := by simpa [takenDisplacement] using h
    rw [exec_beq, if_pos heq]
  | bne rs rt disp =>
    obtain ⟨hne, rfl⟩ : readReg s rs ≠ readReg s rt ∧ disp = imm := by simpa [takenDisplacement] using h
    rw [exec_bne, if_pos hne]

/-- A Running core whose pc is set to `a` next executes the word that memory holds at `a`. -/
theorem step_setPc {s : State} {a w : Word} (hr : s.runState = .running) (hf : fetchWord s a = .ok w) :
    step (setPc s a) = execDecoded (decode w) (setPc s a) :=
  step_running_ok hr ((fetchWord_congr rfl rfl a).trans hf)

/-- Settles O33: the taken branch's whole effect is the pc it writes, so the next step fetches there, from the memory
the branch found. -/
theorem noBranchDelaySlot : Obligations.NoBranchDelaySlot := by
  intro s w i imm hr hf hd htaken
  have hstep : step s = .next (setPc s (branchTarget s.cfg.sextBoundary s.pc imm)) := by
    rw [step_running_ok hr hf, hd]
    exact exec_of_takenDisplacement htaken
  exact ⟨_, hstep, setPc_movesOnly s _, fun _ => step_setPc hr⟩

/-- Settles O19: the word is the encoder's, and the branch is the one write of the pc that `exec_beq` states. -/
theorem beqBranchesOnEquality : Obligations.BeqBranchesOnEquality :=
  fun s rs rt imm => ⟨decode_encode (i := .beq rs rt imm) rfl, _, exec_beq s rs rt imm, setPc_movesOnly s _⟩

/-- Settles O20: the word is the encoder's, and the branch is the one write of the pc that `exec_bne` states. -/
theorem bneBranchesOnInequality : Obligations.BneBranchesOnInequality :=
  fun s rs rt imm => ⟨decode_encode (i := .bne rs rt imm) rfl, _, exec_bne s rs rt imm, setPc_movesOnly s _⟩

end Sys2Proof.Machine

/-! SUPPORT. Proofs about exceptions (60_exceptions.md): no instruction traps (R110), and only the halt word turns the
run state (R82). -/

namespace Sys2Proof.Machine

theorem runState_of_writeAndAdvance {s t : State} {i : RegIdx} {v : Word} (h : writeAndAdvance s i v = .next t) :
    t.runState = s.runState := by
  rw [writeAndAdvance_next h, advance_runState, writeReg_runState]

/-- A branch, taken or not, leaves the run state alone, whatever its target (R104). -/
theorem runState_of_branchIf {s t : State} {taken : Bool} {imm : Imm16} (h : branchIf taken imm s = .next t) :
    t.runState = s.runState := by
  rw [branchIf_next h, apply_ite State.runState, setPc_runState, advance_runState, ite_self]

/-- Every instruction but `nop` ends in a register write or in a branch, and neither touches the run state. -/
theorem runState_of_exec {i : Instr} {s t : State} (hi : i ≠ .nop) (h : exec i s = .next t) :
    t.runState = s.runState := by
  cases i with
  | nop => exact absurd rfl hi
  | add | sll | srl | addi | andi => exact runState_of_writeAndAdvance h
  | beq | bne => exact runState_of_branchIf h

theorem runState_of_exec_nop {s t : State} (h : exec .nop s = .next t) : t.runState = .halted := by
  cases h; exact setRunState_runState s .halted

/-- Settles O26: `exec` is total by `exec_eq_next`, and the run state it leaves is that of the case of `nop` or of any
other instruction. -/
theorem noInstructionTraps : Obligations.NoInstructionTraps := by
  intro i s
  obtain ⟨t, ht⟩ := exec_eq_next i s
  refine ⟨t, ht, ?_⟩
  split_ifs with hi
  · subst hi
    exact runState_of_exec_nop ht
  · exact runState_of_exec hi ht

end Sys2Proof.Machine

/-! SUPPORT. Proofs about reset (70_reset_and_hazards.md section 1): the fields it leaves behind (R125); what a register
reads after it is `readReg_hostReset`, with the rules of the register file. -/

namespace Sys2Proof.Machine

@[simp] theorem hostReset_pc (s : State) : (hostReset s).pc = s.cfg.baseTextAddr := rfl
@[simp] theorem hostReset_runState (s : State) : (hostReset s).runState = .running := rfl

/-- Settles O41: the three lines of R125's pseudocode, each by the rule of its field. -/
theorem resetWhateverTheState : Obligations.ResetWhateverTheState :=
  fun s => ⟨readReg_hostReset s, hostReset_pc s, hostReset_runState s⟩

end Sys2Proof.Machine

/-! SUPPORT. Proofs about the round trip of the encoding (R75), the words of no row (R58), and the words that the spec
lists. -/

namespace Sys2Proof

/-- Settles O2: `decode_encode` runs the decoder on the word that the encoder builds, row by row. -/
theorem decodeInvertsEncode : Obligations.DecodeInvertsEncode :=
  fun _ => decode_encode

/-- Settles O3: the fields read from a word put that word together again, and the zero test keeps the all-zero
sll out. -/
theorem encodeInvertsDecode : Obligations.EncodeInvertsDecode :=
  fun _ _ => decode_eq_instr_iff.mp

theorem decodeRegisterFormat_eq_unrecognisedR {w : Word} :
    decodeRegisterFormat w = .unrecognisedR ↔ functOf w ≠ 0x00#6 ∧ functOf w ≠ 0x02#6 ∧ functOf w ≠ 0x20#6 := by
  unfold decodeRegisterFormat
  split_ifs <;> simp_all

theorem decodeRegisterFormat_ne_unrecognisedI (w : Word) : decodeRegisterFormat w ≠ .unrecognisedI := by
  unfold decodeRegisterFormat
  split_ifs <;> exact nofun

theorem decodeImmediateFormat_eq_unrecognisedI {w : Word} :
    decodeImmediateFormat w = .unrecognisedI ↔
      opOf w ≠ 0x04#6 ∧ opOf w ≠ 0x05#6 ∧ opOf w ≠ 0x08#6 ∧ opOf w ≠ 0x0C#6 := by
  unfold decodeImmediateFormat
  split_ifs <;> simp_all

theorem decodeImmediateFormat_ne_unrecognisedR (w : Word) : decodeImmediateFormat w ≠ .unrecognisedR := by
  unfold decodeImmediateFormat
  split_ifs <;> exact nofun

/-- Settles O5: the zero word has `op` and `funct` 0 and is recognised; every other word goes to the decoder of its
format (R48, R56), which answers its own unrecognised outcome and not the other's. -/
theorem unrecognisedExactlyBySelector : Obligations.UnrecognisedExactlyBySelector := by
  intro w
  by_cases hw : w = 0#32
  · subst hw
    decide
  by_cases hop : opOf w = 0#6
  · rw [decode_of_opOf_eq_zero hw hop, decodeRegisterFormat_eq_unrecognisedR]
    simp [hop, decodeRegisterFormat_ne_unrecognisedI]
  · rw [decode_of_opOf_ne_zero hop, decodeImmediateFormat_eq_unrecognisedI]
    simp [hop, decodeImmediateFormat_ne_unrecognisedR]

/-- Settles O7: twelve words, each decoded as it stands. -/
theorem listedWordsDecode : Obligations.ListedWordsDecode := by
  unfold Obligations.ListedWordsDecode
  decide

end Sys2Proof

/-! SUPPORT. Proofs about the signed reading of the immediate field (R52, R64) and where a branch goes (R63, R103,
R104). -/

namespace Sys2Proof.Machine

theorem sextInt_contract (v : Imm16) :
    sextInt .contract v = if v.toNat < 0x8000 then (v.toNat : Int) else v.toNat - 65536 := by
  simp [sextInt, immNonNegative]

theorem sextInt_reference (v : Imm16) :
    sextInt .reference v = if v.toNat ≤ 0x8000 then (v.toNat : Int) else v.toNat - 65536 := by
  simp [sextInt, immNonNegative]

/-- Settles O8: the two readings by their boundary, and the word of a reading by `sext32_toNat`. -/
theorem signedFieldReading : Obligations.SignedFieldReading := by
  intro v
  rw [sextInt_contract, sextInt_reference]
  exact ⟨fun h => if_pos h, fun h => if_neg (by omega), fun h => if_pos h, fun h => if_neg (by omega),
    fun b => sext32_toNat b v⟩

theorem sextInt_contract_eq_toInt (v : Imm16) : sextInt .contract v = v.toInt := by
  rw [sextInt_contract, BitVec.toInt_eq_toNat_cond]
  split_ifs <;> omega

/-- The one field that the two readings tell apart (C1). -/
theorem sextInt_reference_eq (v : Imm16) :
    sextInt .reference v = if v = 0x8000#16 then 32768 else sextInt .contract v := by
  by_cases hv : v = 0x8000#16
  · subst hv
    decide
  · have hne : v.toNat ≠ 0x8000 := fun h => hv (BitVec.eq_of_toNat_eq h)
    rw [if_neg hv, sextInt_contract, sextInt_reference]
    split_ifs <;> omega

theorem sextInt_contract_0x8000 : sextInt .contract 0x8000#16 = -32768 := by decide

/-- Settles O9: the reading is the signed value, whose word is the sign extension; at 0x8000 the two readings give two
different words, and at every other field they are one number. -/
theorem contractIsTwosComplement : Obligations.ContractIsTwosComplement := by
  intro v
  refine ⟨?_, sextInt_contract_eq_toInt v, ?_⟩
  · rw [sext32, sextInt_contract_eq_toInt, BitVec.signExtend]
  · rw [sext32, sext32, sextInt_reference_eq]
    split_ifs with hv
    · subst hv
      decide
    · simp [hv]

/-- The 16-bit pattern of a number in R64's range reads back as the number. -/
theorem sextInt_contract_ofInt {v : Int} (hlo : -32768 ≤ v) (hhi : v ≤ 32767) :
    sextInt .contract (BitVec.ofInt 16 v) = v := by
  rw [sextInt_contract_eq_toInt, BitVec.toInt_ofInt_eq_self (by decide) (by omega) (by omega)]

/-- Settles O10: under `contract` the pattern reads back; `reference` differs where the pattern is 0x8000, which reads
back as -32768. -/
theorem acceptedImmediateReadsBack : Obligations.AcceptedImmediateReadsBack := by
  intro v hlo hhi
  have hback := sextInt_contract_ofInt hlo hhi
  refine ⟨hback, ?_⟩
  rw [sextInt_reference_eq]
  split_ifs with hv
  · rw [hv, sextInt_contract_0x8000] at hback
    omega
  · rw [hback]
    refine iff_of_true rfl ?_
    rintro rfl
    exact hv (by decide)

/-! The target of a branch (R103), as the pc moved by a whole number of slots. -/

theorem branchTarget_eq_add_slots (b : SextBoundary) (pc : Word) (imm : Imm16) :
    branchTarget b pc imm = pc + BitVec.ofInt 32 (4 * (sextInt b imm + 1)) := by
  rw [branchTarget, show (pc.toNat : Int) + 4 + 4 * sextInt b imm = pc.toNat + 4 * (sextInt b imm + 1) by ring,
    BitVec.ofInt_add, BitVec.ofInt_natCast, BitVec.ofNat_toNat, BitVec.setWidth_eq]

theorem branchTarget_aligned (b : SextBoundary) {pc : Word} (imm : Imm16) (h : pc.toNat % 4 = 0) :
    (branchTarget b pc imm).toNat % 4 = 0 := by
  have := branchTarget_toNat b pc imm
  omega

theorem sextInt_bounds (b : SextBoundary) (v : Imm16) :
    -32768 ≤ sextInt b v ∧ (b = .contract → sextInt b v ≤ 32767) ∧ sextInt b v ≤ 32768 := by
  have := v.isLt
  cases b with
  | contract => rw [sextInt_contract]; split_ifs <;> omega
  | reference => rw [sextInt_reference]; split_ifs <;> simp <;> omega

/-- Settles O13: the target is one slot and the displacement away from the pc, so its reach is that of the reading. -/
theorem branchTargetAlignedAndInReach : Obligations.BranchTargetAlignedAndInReach := by
  intro b pc imm hpc
  obtain ⟨hlo, hcontract, hhi⟩ := sextInt_bounds b imm
  exact ⟨branchTarget_aligned b imm hpc, sextInt b imm + 1, by omega,
    fun hb => by have := hcontract hb; omega, by omega, branchTarget_eq_add_slots b pc imm⟩

theorem resolveLabel_eq_some {labels : List (Option Token)} {slot : Nat} {label : Token} {d : Int}
    (h : resolveLabel labels slot label = some d) :
    ∃ k : Nat, firstIndex (some label) labels = some k ∧ d = k - (slot + 1) := by
  rw [resolveLabel] at h
  split_ifs at h
  obtain ⟨k, hk, hd⟩ := Option.map_eq_some_iff.mp h
  exact ⟨k, hk, hd.symm⟩

theorem slotAddr_add (c : Config) (i j : Nat) :
    slotAddr c i + BitVec.ofInt 32 (4 * ((j : Int) - i)) = slotAddr c j := by
  rw [slotAddr, slotAddr, BitVec.add_assoc, ← BitVec.ofInt_natCast, ← BitVec.ofInt_natCast, ← BitVec.ofInt_add]
  congr 2
  push_cast
  ring

/-- Settles O12: a displacement in the accepted range reads back, and one slot more than it is the distance from the
branch's slot to the label's. -/
theorem branchLandsOnItsLabel : Obligations.BranchLandsOnItsLabel := by
  intro c labels slot label d h hlo hhi
  obtain ⟨k, hk, rfl⟩ := resolveLabel_eq_some h
  refine ⟨k, hk, ?_⟩
  rw [branchTarget_eq_add_slots, sextInt_contract_ofInt hlo hhi, ← slotAddr_add c slot k]
  congr 3
  ring

end Sys2Proof.Machine

/-! SUPPORT. Proofs about one instruction: the ignored fields (R57), the old value as the source (R21), the halt word
(R82), the unrecognised words (R107, R108), and what an effect depends on (R12). -/

namespace Sys2Proof.Machine

/-- Settles O6: the meanings named in the three equations end in a write that does not mention the ignored field. -/
theorem ignoredFieldsChangeNothing : Obligations.IgnoredFieldsChangeNothing := by
  intro s rs rt rs' rt' rd shamt shamt'
  simp only [exec_add, exec_sll, exec_srl, and_self]

/-- A change of the run state changes nothing else. -/
theorem setRunState_turnsOnly (s : State) (r : RunState) : TurnsOnly s (setRunState s r) r :=
  ⟨readReg_setRunState s r, setRunState_pc s r, setRunState_runState s r, fun _ => rfl, rfl, rfl⟩

/-- Settles O21: `nop` is one write of the run state. -/
theorem nopHaltsAndChangesNothingElse : Obligations.NopHaltsAndChangesNothingElse :=
  fun s => ⟨decode_encode (i := .nop) rfl, _, rfl, setRunState_turnsOnly s .halted⟩

/-- Settles O22: both unrecognised outcomes are the default advance, which is a write of the pc. -/
theorem unrecognisedWordOnlyAdvances : Obligations.UnrecognisedWordOnlyAdvances := by
  intro s w h
  refine ⟨advance s, ?_, setPc_movesOnly s (s.pc + 4#32)⟩
  obtain h | h := h <;> rw [h] <;> rfl

theorem writeAndAdvance_stores_pc (s : State) (i : RegIdx) (v : Word) :
    ∃ t, writeAndAdvance s i v = .next t ∧ readReg t i = v ∧ t.pc = s.pc + 4#32 := by
  obtain ⟨t, ht, hreg⟩ := writeAndAdvance_stores s i v
  exact ⟨t, ht, hreg, pc_of_writeAndAdvance ht⟩

theorem add_self_eq_ofNat (w : Word) : w + w = BitVec.ofNat 32 (2 * w.toNat) := by
  rw [BitVec.add_def, Nat.two_mul]

/-- Settles O23: the value of each write is computed from the registers before it (R21). -/
theorem oldValueIsTheSource : Obligations.OldValueIsTheSource := by
  intro s r rs rt shamt imm
  simp only [exec_add, exec_addi, exec_andi, exec_sll, exec_srl, ← add_self_eq_ofNat]
  exact ⟨writeAndAdvance_stores_pc s r _, writeAndAdvance_stores_pc s r _, writeAndAdvance_stores_pc s r _,
    writeAndAdvance_stores_pc s r _, writeAndAdvance_stores_pc s r _⟩

/-! Two states that agree on what an instruction reads. -/

theorem readReg_of_writeAndAdvance {s t : State} {i : RegIdx} {v : Word} (h : writeAndAdvance s i v = .next t) :
    readReg t i = v := by
  rw [writeAndAdvance_next h, readReg_advance, readReg_writeReg_same]

theorem takenDisplacement_congr {i : Instr} {s s' : State} (h : ∀ r, r ∈ sources i → readReg s r = readReg s' r) :
    takenDisplacement i s = takenDisplacement i s' := by
  cases i with
  | nop | add | sll | srl | addi | andi => rfl
  | beq rs rt imm | bne rs rt imm =>
    rw [takenDisplacement, takenDisplacement, h rs (by simp [sources]), h rt (by simp [sources])]

/-- Where an instruction leaves the pc depends on its sources only. -/
theorem exec_pc_congr {i : Instr} {s s' t t' : State} (hcfg : s.cfg = s'.cfg) (hpc : s.pc = s'.pc)
    (h : ∀ r, r ∈ sources i → readReg s r = readReg s' r) (ht : exec i s = .next t) (ht' : exec i s' = .next t') :
    t.pc = t'.pc := by
  by_cases hi : i = .nop
  · subst hi
    cases ht
    cases ht'
    exact hpc
  · rw [pc_of_exec hi ht, pc_of_exec hi ht', takenDisplacement_congr h, hcfg, hpc]

/-- What an instruction writes depends on its sources only. -/
theorem exec_destination_congr {i : Instr} {s s' t t' : State} {d : RegIdx} (hcfg : s.cfg = s'.cfg)
    (h : ∀ r, r ∈ sources i → readReg s r = readReg s' r) (ht : exec i s = .next t) (ht' : exec i s' = .next t')
    (hd : destination i = some d) : readReg t d = readReg t' d := by
  cases i with
  | nop | beq | bne => cases hd
  | add | sll | srl | addi | andi =>
    cases hd
    simp only [sources, List.mem_cons, List.not_mem_nil, or_false, forall_eq_or_imp, forall_eq] at h
    rw [readReg_of_writeAndAdvance ht, readReg_of_writeAndAdvance ht']
    simp only [h, hcfg]

/-- Settles O25: the pc and the destination's value agree by the two lemmas above, and every other register is
framed. -/
theorem effectDependsOnSourcesOnly : Obligations.EffectDependsOnSourcesOnly := by
  intro i s s' hcfg hpc h
  obtain ⟨t, ht⟩ := exec_eq_next i s
  obtain ⟨t', ht'⟩ := exec_eq_next i s'
  exact ⟨t, t', ht, ht', exec_pc_congr hcfg hpc h ht ht', fun _ => exec_destination_congr hcfg h ht ht',
    fun _ hj => ⟨exec_readReg_other ht hj, exec_readReg_other ht' hj⟩⟩

end Sys2Proof.Machine

/-! SUPPORT. Proofs about the step: which of its outcomes occurs when (R80, R114), what it writes, and the two
properties that every step keeps: the invariant, and independence of the text base (D1). -/

namespace Sys2Proof.Machine

/-- Settles O28: the two clauses are the two sides of the window test. -/
theorem fetchWordReadsTheSlot : Obligations.FetchWordReadsTheSlot :=
  fun s a => ⟨fun h => if_pos ((inWindow_iff s.cfg a).mpr h),
    fun h => if_neg (mt (inWindow_iff s.cfg a).mp (Nat.not_lt.mpr h))⟩

/-- Settles O30: past the fetch, a step is `execDecoded`, which hands an instruction to `exec`. -/
theorem stepRunsTheDecodedInstruction : Obligations.StepRunsTheDecodedInstruction := by
  intro s w i hr hf hd
  rw [step_running_ok hr hf, hd, execDecoded]

theorem step_of_zero_word {s : State} (hr : s.runState = .running) (hf : fetchWord s s.pc = .ok 0#32) :
    step s = .next (setRunState s .halted) :=
  step_running_ok hr hf

/-- Settles O31: each stopping outcome is one write of the run state. -/
theorem stepFaultsOrHaltsChangingOnlyRunState : Obligations.StepFaultsOrHaltsChangingOnlyRunState := by
  intro s hr
  constructor
  · intro hout
    have hf := (fetchWordReadsTheSlot s s.pc).2 hout
    exact ⟨_, step_running_error hr hf, setRunState_turnsOnly s .faulted⟩
  · intro hf
    exact ⟨_, step_of_zero_word hr hf, setRunState_turnsOnly s .halted⟩

/-! The run state after a step (R15). -/

theorem decode_eq_nop_iff {w : Word} : decode w = .instr .nop ↔ w = 0#32 := by
  rw [decode_eq_instr_iff]
  exact ⟨fun h => h.1.symm, fun h => ⟨h.symm, rfl⟩⟩

theorem runState_of_execDecoded {d : Decoded} {s t : State} (h : execDecoded d s = .next t) :
    t.runState = if d = .instr .nop then .halted else s.runState := by
  cases d with
  | unrecognisedR | unrecognisedI => cases h; rfl
  | instr i =>
    simp only [Decoded.instr.injEq]
    split_ifs with hi
    · subst hi
      exact runState_of_exec_nop h
    · exact runState_of_exec hi h

/-- The run state that a Running core's step leaves, with the conditions in R114's order. -/
theorem runState_of_step {s t : State} (hr : s.runState = .running) (h : step s = .next t) :
    t.runState = if inWindow s.cfg s.pc = false then .faulted
      else if imemRead s.imem (slotOf s.cfg s.pc) = 0#32 then .halted else .running := by
  obtain ⟨hs, -⟩ | ⟨-, hout, rfl⟩ | ⟨-, hin, hd⟩ := step_cases h
  · exact absurd hr hs
  · rw [if_pos hout, setRunState_runState]
  · rw [if_neg (by simp [hin]), runState_of_execDecoded hd, hr]
    simp only [decode_eq_nop_iff]

/-- Settles O34: a stopped core's step is idle, and a Running core's is decided by the window and the fetched word. -/
theorem runStateTransitions : Obligations.RunStateTransitions := by
  intro s t h
  refine ⟨fun hs => ?_, fun hr => ?_, fun hr => ?_⟩
  · rw [step_not_running hs] at h
    cases h
    rfl
  · rw [runState_of_step hr h]
    split_ifs with hout hz <;> simp [hout]
  · rw [runState_of_step hr h, fetchWord_eq_ok]
    split_ifs with hout hz
    · simp [hout]
    · simp [hz, Bool.eq_true_of_not_eq_false hout]
    · simp [hz]

/-- Settles O35: of the outcomes of a step only `writeAndAdvance` writes a register, and the core then goes on. -/
theorem stepWritesAtMostOneRegister : Obligations.StepWritesAtMostOneRegister := by
  intro s t h
  obtain ⟨-, rfl⟩ | ⟨-, -, rfl⟩ | ⟨hr, -, hd⟩ := step_cases h
  · exact ⟨⟨0, fun _ _ => rfl⟩, fun _ => ⟨rfl, fun _ => rfl⟩⟩
  · exact ⟨⟨0, fun _ _ => rfl⟩, fun _ => ⟨rfl, fun _ => rfl⟩⟩
  obtain ⟨-, rfl⟩ | ⟨i, v, rfl⟩ | ⟨imm, rfl⟩ | rfl := execDecoded_cases hd
  · exact ⟨⟨0, fun _ _ => rfl⟩, fun _ => ⟨rfl, fun _ => rfl⟩⟩
  · exact ⟨⟨i, fun _ => readReg_writeReg_other s v⟩, fun hstop => absurd hr hstop⟩
  · exact ⟨⟨0, fun _ _ => rfl⟩, fun hstop => absurd hr hstop⟩
  · exact ⟨⟨0, fun _ _ => rfl⟩, fun hstop => absurd hr hstop⟩

/-! The invariant. -/

theorem add_four_aligned {a : Word} (h : a.toNat % 4 = 0) : (a + 4#32).toNat % 4 = 0 := by
  rw [BitVec.toNat_add, BitVec.toNat_ofNat]
  omega

theorem execDecoded_pc_aligned {d : Decoded} {s t : State} (h : execDecoded d s = .next t)
    (hpc : s.pc.toNat % 4 = 0) : t.pc.toNat % 4 = 0 := by
  obtain ⟨-, rfl⟩ | ⟨i, v, rfl⟩ | ⟨imm, rfl⟩ | rfl := execDecoded_cases h
  · exact hpc
  · exact add_four_aligned hpc
  · exact branchTarget_aligned _ imm hpc
  · exact add_four_aligned hpc

theorem step_pc_aligned {s t : State} (h : step s = .next t) (hpc : s.pc.toNat % 4 = 0) : t.pc.toNat % 4 = 0 := by
  obtain ⟨-, rfl⟩ | ⟨-, -, rfl⟩ | ⟨-, -, hd⟩ := step_cases h
  · exact hpc
  · exact hpc
  · exact execDecoded_pc_aligned hd hpc

/-- Settles O39: no step writes the parameters or instruction memory, and every pc update keeps the alignment (R34). -/
theorem stepKeepsWellFormed : Obligations.StepKeepsWellFormed := by
  intro s t ⟨hcfg, hpc, hcanon, hbelow⟩ h
  obtain ⟨himem, hcfg'⟩ := step_imem_cfg h
  rw [State.wf, himem, hcfg']
  exact ⟨hcfg, step_pc_aligned h hpc, hcanon, hbelow⟩

/-! Relocation: each part of a step sees the pc only relative to the base, or moves it by a distance. -/

theorem branchTarget_add (b : SextBoundary) (pc d : Word) (imm : Imm16) :
    branchTarget b (pc + d) imm = branchTarget b pc imm + d := by
  rw [branchTarget_eq_add_slots, branchTarget_eq_add_slots, add_right_comm]

theorem relocate_setPc (d : Word) (s : State) (a : Word) :
    relocate d (setPc s a) = setPc (relocate d s) (a + d) := rfl

theorem relocate_advance (d : Word) (s : State) : relocate d (advance s) = advance (relocate d s) := by
  rw [advance, relocate_setPc, add_right_comm]
  rfl

theorem windowOffset_relocate (d : Word) (s : State) (a : Word) :
    windowOffset (relocate d s).cfg (a + d) = windowOffset s.cfg a := by
  rw [windowOffset, windowOffset, relocate, add_sub_add_right_eq_sub]

theorem inWindow_relocate (d : Word) (s : State) (a : Word) :
    inWindow (relocate d s).cfg (a + d) = inWindow s.cfg a := by
  rw [inWindow, inWindow, windowOffset_relocate]
  rfl

theorem slotOf_relocate (d : Word) (s : State) (a : Word) : slotOf (relocate d s).cfg (a + d) = slotOf s.cfg a := by
  rw [slotOf, slotOf, windowOffset_relocate]

theorem writeAndAdvance_relocate (d : Word) (s : State) (i : RegIdx) (v : Word) :
    writeAndAdvance (relocate d s) i v = mapNext (relocate d) (writeAndAdvance s i v) :=
  congrArg Host.Outcome.next (relocate_advance d (writeReg s i v)).symm

theorem branchIf_relocate (d : Word) (s : State) (taken : Bool) (imm : Imm16) :
    branchIf taken imm (relocate d s) = mapNext (relocate d) (branchIf taken imm s) := by
  cases taken
  · exact congrArg Host.Outcome.next (relocate_advance d s).symm
  · refine congrArg Host.Outcome.next ?_
    rw [if_pos rfl, if_pos rfl, relocate_setPc, ← branchTarget_add]
    rfl

theorem execDecoded_relocate (d : Word) (w : Decoded) (s : State) :
    execDecoded w (relocate d s) = mapNext (relocate d) (execDecoded w s) := by
  cases w with
  | unrecognisedR | unrecognisedI => exact congrArg Host.Outcome.next (relocate_advance d s).symm
  | instr i =>
    cases i with
    | nop => rfl
    | add | sll | srl | addi | andi => exact writeAndAdvance_relocate d s _ _
    | beq | bne => exact branchIf_relocate d s _ _

/-- Settles O40: the relocated core fetches the same word from the same slot, or faults as well, and executes it with
the same effect, its pc `d` further on. -/
theorem stepIsPositionIndependent : Obligations.StepIsPositionIndependent := by
  intro d s
  by_cases hr : s.runState = .running
  · cases hf : fetchWord s s.pc with
    | error f =>
      have hf' := fetchWord_eq_error.mpr
        ⟨(inWindow_relocate d s s.pc).trans (fetchWord_eq_error.mp hf).1, rfl⟩
      rw [step_running_error hr hf, step_running_error (s := relocate d s) hr hf']
      rfl
    | ok w =>
      obtain ⟨hin, hread⟩ := fetchWord_eq_ok.mp hf
      have hf' : fetchWord (relocate d s) (relocate d s).pc = .ok w :=
        fetchWord_eq_ok.mpr ⟨(inWindow_relocate d s s.pc).trans hin, slotOf_relocate d s s.pc ▸ hread⟩
      rw [step_running_ok hr hf, step_running_ok (s := relocate d s) hr hf', execDecoded_relocate]
  · rw [step_not_running hr, step_not_running (s := relocate d s) hr]
    rfl

end Sys2Proof.Machine

/-! SUPPORT. Proofs about runs: what a fixed state does (R85, R86, R106), and how a run's lengths fit together. -/

namespace Sys2Proof.Machine

theorem runSteps_of_step_self {s : State} (h : step s = .next s) (n : Nat) : runSteps n s = .next s := by
  induction n with
  | zero => exact runSteps_zero s
  | succ n ih => rw [runSteps_succ n h, ih]

theorem runSteps_not_running {s : State} (h : s.runState ≠ .running) (n : Nat) : runSteps n s = .next s :=
  runSteps_of_step_self (step_not_running h) n

/-- Settles O36: a stopped core's step is the state itself. -/
theorem haltedAndFaultedAreAbsorbing : Obligations.HaltedAndFaultedAreAbsorbing :=
  fun _ n h => runSteps_not_running h n

/-- Settles O37: the first step halts, and the Halted state is what every further step answers. -/
theorem zeroWordEndsTheRun : Obligations.ZeroWordEndsTheRun := by
  intro s hr hf
  have hrun (n : Nat) : runSteps (n + 1) s = .next (setRunState s .halted) := by
    rw [runSteps_succ n (step_of_zero_word hr hf), runSteps_not_running (by simp)]
  refine ⟨⟨1, _, hrun 0, rfl⟩, fun n t h => ?_, _, setRunState_turnsOnly s .halted, if_pos rfl, hrun⟩
  cases n with
  | zero => cases h; simp [hr]
  | succ n => rw [hrun n] at h; cases h; simp

/-- The field 0xFFFF reads as -1 under both values of SEXT_BOUNDARY, so the target is the branch's own address. -/
theorem branchTarget_self (b : SextBoundary) (pc : Word) : branchTarget b pc 0xFFFF#16 = pc := by
  have hfield : sextInt b 0xFFFF#16 = -1 := by cases b <;> rfl
  rw [branchTarget_eq_add_slots, hfield]
  exact BitVec.add_zero pc

/-- Settles O38: the step writes the pc it had, so it answers the same Running state. -/
theorem branchToSelfRunsForever : Obligations.BranchToSelfRunsForever := by
  intro s w i hr hf hd htaken
  have hstep : step s = .next s := by
    rw [stepRunsTheDecodedInstruction s w i hr hf hd, exec_of_takenDisplacement htaken, branchTarget_self]
    rfl
  have hrun := runSteps_of_step_self hstep
  refine ⟨hrun, fun n => ⟨s, hrun n, hr⟩, ?_⟩
  rintro ⟨n, t, h, hhalt⟩
  rw [hrun n] at h
  cases h
  exact absurd (hr.symm.trans hhalt) (by decide)

theorem runSteps_eq_next (n : Nat) (s : State) : ∃ t, runSteps n s = .next t := by
  induction n generalizing s with
  | zero => exact ⟨s, runSteps_zero s⟩
  | succ n ih =>
    obtain ⟨u, hu⟩ := step_eq_next s
    rw [runSteps_succ n hu]
    exact ih u

theorem runSteps_add {k : Nat} {s t : State} (h : runSteps k s = .next t) (m : Nat) :
    runSteps (k + m) s = runSteps m t := by
  induction k generalizing s with
  | zero => cases h; rw [Nat.zero_add]
  | succ k ih =>
    obtain ⟨u, hu⟩ := step_eq_next s
    rw [runSteps_succ k hu] at h
    rw [Nat.add_right_comm, runSteps_succ (k + m) hu, ih h]

/-- Once a run has stopped, every longer run ends in the same state. -/
theorem runSteps_of_stopped {k n : Nat} {s t : State} (hkn : k ≤ n) (h : runSteps k s = .next t)
    (hstop : t.runState ≠ .running) : runSteps n s = .next t := by
  rw [← Nat.add_sub_cancel' hkn, runSteps_add h, runSteps_not_running hstop]

end Sys2Proof.Machine

/-! SUPPORT. Proofs about the harness (R137): with a bound of `n` steps it reports what no further step would show of
the state after `n` steps, and each report without a bound is one that some bound shows. -/

namespace Sys2Proof.Machine

theorem harnessRun_not_running {s : State} (h : s.runState ≠ .running) (n : Nat) :
    harnessRun n s = harnessRun 0 s := by
  rw [harnessRun.eq_def, harnessRun.eq_def]
  cases hr : s.runState with
  | running => exact absurd hr h
  | halted | faulted => simp only [hr]

theorem harnessRun_succ {s t : State} (hr : s.runState = .running) (h : step s = .next t) (n : Nat) :
    harnessRun (n + 1) s = harnessRun n t := by
  rw [harnessRun.eq_def]
  simp only [hr, h]

/-- The report under a bound is that of the state after that many steps. -/
theorem harnessRun_of_runSteps {n : Nat} {s t : State} (h : runSteps n s = .next t) :
    harnessRun n s = harnessRun 0 t := by
  induction n generalizing s with
  | zero => cases h; rfl
  | succ n ih =>
    by_cases hr : s.runState = .running
    · obtain ⟨u, hu⟩ := step_eq_next s
      rw [runSteps_succ n hu] at h
      rw [harnessRun_succ hr hu, ih h]
    · rw [runSteps_not_running hr] at h
      cases h
      exact harnessRun_not_running hr _

/-! What is reported of a state when no step is left. -/

theorem harnessRun_zero_eq_finished {t : State} {regs : Vector Word 32} {pc : Word} :
    harnessRun 0 t = .finished regs pc ↔ t.runState = .halted ∧ t.regs = regs ∧ t.pc = pc := by
  cases hr : t.runState <;> simp [harnessRun, hr]

theorem harnessRun_zero_eq_faulted {t : State} {pc : Word} :
    harnessRun 0 t = .faulted pc ↔ t.runState = .faulted ∧ t.pc = pc := by
  cases hr : t.runState <;> simp [harnessRun, hr]

theorem harnessRun_zero_eq_didNotFinish {t : State} :
    harnessRun 0 t = .didNotFinish ↔ t.runState = .running := by
  cases hr : t.runState <;> simp [harnessRun, hr]

/-- A report of a stopped state is made under a bound of `n` exactly if some run of at most `n` steps ends in a state of
which it is the report. -/
theorem harnessRun_eq_iff {n : Nat} {s : State} {r : Report} (hr : r ≠ .didNotFinish) :
    harnessRun n s = r ↔ ∃ k t, k ≤ n ∧ runSteps k s = .next t ∧ harnessRun 0 t = r := by
  constructor
  · intro h
    obtain ⟨t, ht⟩ := runSteps_eq_next n s
    exact ⟨n, t, Nat.le_refl n, ht, (harnessRun_of_runSteps ht).symm.trans h⟩
  · rintro ⟨k, t, hkn, ht, rfl⟩
    have hstop : t.runState ≠ .running := mt harnessRun_zero_eq_didNotFinish.mpr hr
    exact harnessRun_of_runSteps (runSteps_of_stopped hkn ht hstop)

theorem harnessRun_eq_didNotFinish {n : Nat} {s : State} :
    harnessRun n s = .didNotFinish ↔ ∃ t, runSteps n s = .next t ∧ t.runState = .running := by
  obtain ⟨t, ht⟩ := runSteps_eq_next n s
  rw [harnessRun_of_runSteps ht, harnessRun_zero_eq_didNotFinish, ht]
  simp

/-- Settles O47: each kind of report by the state that it is the report of. -/
theorem harnessReportsTheRun : Obligations.HarnessReportsTheRun := by
  intro n s regs pc
  refine ⟨?_, ?_, harnessRun_eq_didNotFinish⟩
  · simp only [← harnessRun_zero_eq_finished]
    exact harnessRun_eq_iff nofun
  · simp only [← harnessRun_zero_eq_faulted]
    exact harnessRun_eq_iff nofun

/-- A report without a bound is that of a stopped state which the run reaches. -/
theorem harnessReports_none_iff {s : State} {r : Report} (hr : r ≠ .didNotFinish) :
    HarnessReports none s r ↔ ∃ k t, runSteps k s = .next t ∧ harnessRun 0 t = r := by
  rw [harnessReports_none]
  constructor
  · rintro ⟨-, n, h⟩
    obtain ⟨k, t, -, ht, h0⟩ := (harnessRun_eq_iff hr).mp h
    exact ⟨k, t, ht, h0⟩
  · rintro ⟨k, t, ht, h0⟩
    exact ⟨hr, k, (harnessRun_of_runSteps ht).trans h0⟩

/-- Two bounds under which the harness reports an end show the same end. -/
theorem harnessReports_none_unique {s : State} {r r' : Report} (h : HarnessReports none s r)
    (h' : HarnessReports none s r') : r = r' := by
  obtain ⟨hr, n, hn⟩ := h
  obtain ⟨hr', n', hn'⟩ := h'
  have hmono {m : Nat} {q : Report} (hq : q ≠ .didNotFinish) (hm : harnessRun m s = q) (hle : m ≤ max n n') :
      harnessRun (max n n') s = q := by
    obtain ⟨k, t, hk, ht⟩ := (harnessRun_eq_iff hq).mp hm
    exact (harnessRun_eq_iff hq).mpr ⟨k, t, hk.trans hle, ht⟩
  exact (hmono hr hn (le_max_left n n')).symm.trans (hmono hr' hn' (le_max_right n n'))

theorem runsForever_iff {s : State} : RunsForever s ↔ ∀ n, harnessRun n s = .didNotFinish :=
  forall_congr' fun _ => harnessRun_eq_didNotFinish.symm

/-- Settles O53: the reports are those of the states the run reaches, and there is none exactly if every bound is
reached first. -/
theorem unboundedHarnessReportsTheRun : Obligations.UnboundedHarnessReportsTheRun := by
  intro s
  refine ⟨fun regs pc => ?_, fun pc => ?_, fun h => h.1 rfl, fun _ _ => harnessReports_none_unique, ?_⟩
  · simp only [← harnessRun_zero_eq_finished]
    exact harnessReports_none_iff nofun
  · simp only [← harnessRun_zero_eq_faulted]
    exact harnessReports_none_iff nofun
  · rw [runsForever_iff]
    refine ⟨fun hnone n => ?_, fun hall r h => ?_⟩
    · by_contra hend
      exact hnone _ ⟨hend, n, rfl⟩
    · obtain ⟨hr, n, rfl⟩ := h
      exact hr (hall n)

end Sys2Proof.Machine

/-! SUPPORT. Proofs about the host's moves (10_state.md section 8): what each does when it is accepted, when it is
refused, and that the accepted ones keep the invariant. -/

namespace Sys2Proof.Machine

/-- Settles O42: reset writes the registers, the pc and the run state, and State.reset is reset's own result. -/
theorem resetLeavesInstructionMemory : Obligations.ResetLeavesInstructionMemory :=
  ⟨fun s => ⟨rfl, rfl, isLaunch_hostReset s⟩, fun _ _ _ _ => rfl⟩

/-- Settles O43: three numerals and an empty memory. -/
theorem resetIsWellFormed : Obligations.ResetIsWellFormed := by
  unfold Obligations.ResetIsWellFormed
  decide

theorem writeReg_writesOnly (s : State) (i : RegIdx) (v : Word) : WritesOnly s (writeReg s i v) i v s.pc :=
  ⟨readReg_writeReg_same s i v, fun _ => readReg_writeReg_other s v, writeReg_pc s i v, writeReg_runState s i v,
    fun _ => rfl, rfl, rfl⟩

theorem hostPreload_refused {i : RegIdx} {v : Word} {h : HostSession}
    (hno : h.started = true ∨ isLaunch h.core = false) :
    hostPreload i v h = .error .preloadDuringRun :=
  if_neg (by obtain hs | hl := hno <;> simp [*])

/-- Settles O44: an accepted preload is one register write, which keeps the form of a launch state. -/
theorem preloadOnlyAtLaunch : Obligations.PreloadOnlyAtLaunch := by
  intro h i v
  refine ⟨fun hl hs => ?_, hostPreload_refused, isLaunch_hostReset h.core, rfl⟩
  exact ⟨_, hostPreload_eq_ok.mpr ⟨hl, hs, rfl⟩, writeReg_writesOnly h.core i v, hl, rfl⟩

/-- The session records the core's own steps. -/
theorem sessionSteps_of_runSteps {n : Nat} {h : HostSession} {t : State} (ht : runSteps (n + 1) h.core = .next t) :
    sessionSteps (n + 1) h = .next { core := t, started := true } := by
  induction n generalizing h with
  | zero =>
    obtain ⟨u, hu⟩ := step_eq_next h.core
    rw [runSteps_succ 0 hu] at ht
    cases ht
    rw [sessionSteps_succ 0 (sessionStep_of_step hu), sessionSteps]
  | succ n ih =>
    obtain ⟨u, hu⟩ := step_eq_next h.core
    rw [runSteps_succ _ hu] at ht
    rw [sessionSteps_succ _ (sessionStep_of_step hu)]
    exact ih ht

/-- Settles O51: the session is `started` from its first step on, which refuses every preload; a Running core refuses
the loader. -/
theorem hostCannotAlterARun : Obligations.HostCannotAlterARun := by
  intro n h
  obtain ⟨t, ht⟩ := runSteps_eq_next (n + 1) h.core
  exact ⟨t, ht, sessionSteps_of_runSteps ht, fun _ _ => hostPreload_refused (.inl rfl),
    fun hr slot w => instructionMemoryIsReadOnly.2 t slot w hr⟩

/-- The loader's memory holds word `k` in the `k`-th slot from its first, and zero in every slot after the last word. -/
theorem imemRead_imemOfWords (slot : Nat) (ws : List Word) (k : Nat) :
    imemRead (imemOfWords slot ws) (slot + k) = ws.getD k 0#32 := by
  induction ws generalizing slot k with
  | nil => rfl
  | cons w ws ih =>
    have htail (k : Nat) : imemRead (imemOfWords (slot + 1) ws) (slot + (k + 1)) = ws.getD k 0#32 := by
      rw [← ih (slot + 1) k, Nat.add_right_comm, Nat.add_assoc]
    rw [imemOfWords]
    cases k with
    | zero =>
      split_ifs with hw
      · rw [hw]
        exact imemRead_below (Nat.lt_succ_self slot) _ (imemOfWords_canonicalFrom (slot + 1) ws)
      · exact if_pos rfl
    | succ k =>
      split_ifs with hw
      · exact htail k
      · rw [imemRead, if_neg (by omega)]
        exact htail k

/-- Settles O45: an accepted boot is reset, the preloaded registers and the loader's memory. -/
theorem bootLoadsTheProgram : Obligations.BootLoadsTheProgram := by
  intro words regs s
  refine ⟨fun hlen => ?_, fun hlong => if_neg (Nat.not_le.mpr hlong)⟩
  refine ⟨_, bootWords_eq_ok.mpr ⟨hlen, rfl⟩, isLaunch_hostReset s, rfl, rfl, fun k => ?_⟩
  have hread := imemRead_imemOfWords 0 words k
  rwa [Nat.zero_add] at hread

theorem hostReset_wf {s : State} (h : s.wf) : (hostReset s).wf := by
  obtain ⟨hcfg, -, himem⟩ := h
  exact ⟨hcfg, hcfg.1, himem⟩

theorem hostWriteSlot_wf {slot : Nat} {w : Word} {s t : State} (h : s.wf) (ht : hostWriteSlot slot w s = .ok t) :
    t.wf := by
  obtain ⟨hcfg, hpc, hcanon, hbelow⟩ := h
  obtain ⟨-, hslot, rfl⟩ := hostWriteSlot_eq_ok.mp ht
  exact ⟨hcfg, hpc, imemWrite_wf s.imem slot w hcanon, imemWrite_below w hslot s.imem hbelow⟩

theorem imemRead_of_hostWriteSlot {slot : Nat} {w : Word} {s t : State} (h : s.wf)
    (ht : hostWriteSlot slot w s = .ok t) (k : Nat) :
    imemRead t.imem k = if k = slot then w else imemRead s.imem k := by
  obtain ⟨-, -, hcanon, -⟩ := h
  obtain ⟨-, -, rfl⟩ := hostWriteSlot_eq_ok.mp ht
  exact imemRead_imemWrite s.imem slot k w hcanon

/-- An accepted boot gives a launch state that meets the invariant, whatever memory and pc it replaced. -/
theorem bootWords_launch {words : List Word} {regs : Vector Word 32} {s : State} {t : HostSession} (h : s.wf)
    (ht : bootWords words regs s = .ok t) : t.core.wf ∧ isLaunch t.core = true ∧ t.started = false := by
  obtain ⟨hcfg, -⟩ := h
  obtain ⟨hlen, rfl⟩ := bootWords_eq_ok.mp ht
  refine ⟨⟨hcfg, hcfg.1, imemOfWords_wf 0 words, imemOfWords_below 0 words ?_⟩, isLaunch_hostReset s, rfl⟩
  rwa [Nat.zero_add]

theorem assembleAndBoot_eq_ok {p : AsmParams} {lines : List (List Char)} {regs : Vector Word 32} {s : State}
    {t : HostSession} (h : assembleAndBoot p lines regs s = .ok t) :
    ∃ words, assemble p lines = some words ∧ bootWords words regs s = .ok t := by
  unfold assembleAndBoot at h
  split at h
  · cases h
  · exact ⟨_, ‹_›, h⟩

/-- Settles O46: one lemma per move; a preload writes a register, of which the invariant does not speak. -/
theorem hostMovesKeepWellFormed : Obligations.HostMovesKeepWellFormed := by
  intro s h
  refine ⟨hostReset_wf h, fun started i v t ht => ?_, fun slot w t ht => ?_, fun words regs t ht => ?_,
    fun p lines regs t ht => ?_⟩
  · obtain ⟨-, -, rfl⟩ := hostPreload_eq_ok.mp ht
    exact h
  · have hread := imemRead_of_hostWriteSlot h ht
    exact ⟨hostWriteSlot_wf h ht, (hread slot).trans (if_pos rfl), fun k hk => (hread k).trans (if_neg hk)⟩
  · exact (bootWords_launch h ht).1
  · obtain ⟨words, -, hboot⟩ := assembleAndBoot_eq_ok ht
    exact bootWords_launch h hboot

end Sys2Proof.Machine

/-! SUPPORT. Proofs about the assembler's encodings (R50, R61 to R72): a field packed into an encoded word takes its
place there, so each mnemonic packs the word that `encode` gives its instruction. -/

namespace Sys2Proof.Machine

/-! Packing into a word of the encoder whose field is still zero. -/

theorem setField_eq {k : Nat} {w x : Word} {v : BitVec k} {offset : Nat} (hk : offset + k ≤ 32)
    (hzero : unpack w offset k = 0#k) (hx : x.toNat = w.toNat + v.toNat * 2 ^ offset) : setField w v offset = x := by
  have hbits := congrArg BitVec.toNat hzero
  rw [unpack_toNat, BitVec.toNat_ofNat, Nat.zero_mod] at hbits
  exact BitVec.eq_of_toNat_eq ((setField_toNat w v offset hk hbits).trans hx.symm)

section Packing
variable (rs rt rd : RegIdx) (shamt : Shamt) (funct op : BitVec 6) (imm : Imm16)

theorem setField_registerWord_rs :
    setField (registerWord 0 rt rd shamt funct) rs 21 = registerWord rs rt rd shamt funct :=
  setField_eq (by decide) (rsOf_registerWord ..) (by simp [registerWord_toNat]; omega)

theorem setField_registerWord_rt :
    setField (registerWord rs 0 rd shamt funct) rt 16 = registerWord rs rt rd shamt funct :=
  setField_eq (by decide) (rtOf_registerWord ..) (by simp [registerWord_toNat]; omega)

theorem setField_registerWord_rd :
    setField (registerWord rs rt 0 shamt funct) rd 11 = registerWord rs rt rd shamt funct :=
  setField_eq (by decide) (rdOf_registerWord ..) (by simp [registerWord_toNat]; omega)

theorem setField_registerWord_shamt :
    setField (registerWord rs rt rd 0 funct) shamt 6 = registerWord rs rt rd shamt funct :=
  setField_eq (by decide) (shamtOf_registerWord ..) (by simp [registerWord_toNat]; omega)

theorem setField_immediateWord_rs : setField (immediateWord op 0 rt imm) rs 21 = immediateWord op rs rt imm :=
  setField_eq (by decide) (rsOf_immediateWord ..) (by simp [immediateWord_toNat]; omega)

theorem setField_immediateWord_rt : setField (immediateWord op rs 0 imm) rt 16 = immediateWord op rs rt imm :=
  setField_eq (by decide) (rtOf_immediateWord ..) (by simp [immediateWord_toNat]; omega)

theorem setField_immediateWord_imm : setField (immediateWord op rs rt 0) imm 0 = immediateWord op rs rt imm :=
  setField_eq (by decide) (immOf_immediateWord ..) (by simp [immediateWord_toNat])

end Packing

/-! The four operand forms, each from the word of its selector. -/

section Forms
variable {n : RegNumbering} {labels : List (Option Token)} {slot : Nat} {funct op : BitVec 6} {a1 a2 a3 : Token}
  {w : Word}

theorem encodeRegisters_eq_ok :
    encodeRegisters n (registerWord 0 0 0 0 funct) a1 a2 a3 = .ok w ↔
      ∃ rd rs rt, regIndex n a1 = some rd ∧ regIndex n a2 = some rs ∧ regIndex n a3 = some rt ∧
        w = registerWord rs rt rd 0 funct := by
  simp only [encodeRegisters, except_bind_eq_ok, orError_eq_ok, setField_registerWord_rd, setField_registerWord_rs,
    setField_registerWord_rt, Except.ok.injEq, exists_and_left, eq_comm (a := w)]

theorem encodeShift_eq_ok :
    encodeShift n (registerWord 0 0 0 0 funct) a1 a2 a3 = .ok w ↔
      ∃ rd rt v, regIndex n a1 = some rd ∧ regIndex n a2 = some rt ∧ parseDecimal a3 = some v ∧ 0 ≤ v ∧ v ≤ 31 ∧
        w = registerWord 0 rt rd (BitVec.ofInt 5 v) funct := by
  simp only [encodeShift, except_bind_eq_ok, orError_eq_ok, pack_unsigned5, setField_registerWord_rd,
    setField_registerWord_rt, setField_registerWord_shamt, exists_and_left]

theorem encodeImmediate_eq_ok :
    encodeImmediate n (immediateWord op 0 0 0) a1 a2 a3 = .ok w ↔
      ∃ rt rs v, regIndex n a1 = some rt ∧ regIndex n a2 = some rs ∧ parseDecimal a3 = some v ∧ -32768 ≤ v ∧
        v ≤ 32767 ∧ w = immediateWord op rs rt (BitVec.ofInt 16 v) := by
  simp only [encodeImmediate, except_bind_eq_ok, orError_eq_ok, pack_signed16, setField_immediateWord_rs,
    setField_immediateWord_rt, setField_immediateWord_imm, exists_and_left]

theorem encodeBranch_eq_ok :
    encodeBranch n labels slot (immediateWord op 0 0 0) a1 a2 a3 = .ok w ↔
      ∃ rs rt d, regIndex n a1 = some rs ∧ regIndex n a2 = some rt ∧ resolveLabel labels slot a3 = some d ∧
        -32768 ≤ d ∧ d ≤ 32767 ∧ w = immediateWord op rs rt (BitVec.ofInt 16 d) := by
  simp only [encodeBranch, except_bind_eq_ok, orError_eq_ok, pack_signed16, setField_immediateWord_rs,
    setField_immediateWord_rt, setField_immediateWord_imm, exists_and_left]

end Forms

/-! The mnemonics: a mnemonic's base word is its selector with every operand zero. -/

section Mnemonics
variable {n : RegNumbering} {labels : List (Option Token)} {slot : Nat} {a1 a2 a3 : Token} {w : Word}

theorem encodeThree_nop_ne_ok : encodeThree n labels slot .nop a1 a2 a3 ≠ .ok w := nofun

theorem encodeThree_add_eq_ok : encodeThree n labels slot .add a1 a2 a3 = .ok w ↔
    ∃ rd rs rt, regIndex n a1 = some rd ∧ regIndex n a2 = some rs ∧ regIndex n a3 = some rt ∧
      w = encode (.add rs rt rd 0) :=
  encodeRegisters_eq_ok (funct := 0x20#6)

theorem encodeThree_addi_eq_ok : encodeThree n labels slot .addi a1 a2 a3 = .ok w ↔
    ∃ rt rs v, regIndex n a1 = some rt ∧ regIndex n a2 = some rs ∧ parseDecimal a3 = some v ∧ -32768 ≤ v ∧
      v ≤ 32767 ∧ w = encode (.addi rs rt (BitVec.ofInt 16 v)) :=
  encodeImmediate_eq_ok (op := 0x08#6)

theorem encodeThree_andi_eq_ok : encodeThree n labels slot .andi a1 a2 a3 = .ok w ↔
    ∃ rt rs v, regIndex n a1 = some rt ∧ regIndex n a2 = some rs ∧ parseDecimal a3 = some v ∧ -32768 ≤ v ∧
      v ≤ 32767 ∧ w = encode (.andi rs rt (BitVec.ofInt 16 v)) :=
  encodeImmediate_eq_ok (op := 0x0C#6)

theorem encodeThree_beq_eq_ok : encodeThree n labels slot .beq a1 a2 a3 = .ok w ↔
    ∃ rs rt d, regIndex n a1 = some rs ∧ regIndex n a2 = some rt ∧ resolveLabel labels slot a3 = some d ∧
      -32768 ≤ d ∧ d ≤ 32767 ∧ w = encode (.beq rs rt (BitVec.ofInt 16 d)) :=
  encodeBranch_eq_ok (op := 0x04#6)

theorem encodeThree_bne_eq_ok : encodeThree n labels slot .bne a1 a2 a3 = .ok w ↔
    ∃ rs rt d, regIndex n a1 = some rs ∧ regIndex n a2 = some rt ∧ resolveLabel labels slot a3 = some d ∧
      -32768 ≤ d ∧ d ≤ 32767 ∧ w = encode (.bne rs rt (BitVec.ofInt 16 d)) :=
  encodeBranch_eq_ok (op := 0x05#6)

theorem encodeThree_srl_eq_ok : encodeThree n labels slot .srl a1 a2 a3 = .ok w ↔
    ∃ rd rt v, regIndex n a1 = some rd ∧ regIndex n a2 = some rt ∧ parseDecimal a3 = some v ∧ 0 ≤ v ∧ v ≤ 31 ∧
      w = encode (.srl 0 rt rd (BitVec.ofInt 5 v)) :=
  encodeShift_eq_ok (funct := 0x02#6)

theorem encodeThree_sll_eq_ok : encodeThree n labels slot .sll a1 a2 a3 = .ok w ↔
    ∃ rd rt v, regIndex n a1 = some rd ∧ regIndex n a2 = some rt ∧ parseDecimal a3 = some v ∧ 0 ≤ v ∧ v ≤ 31 ∧
      w = encode (.sll 0 rt rd (BitVec.ofInt 5 v)) :=
  encodeShift_eq_ok (funct := 0x00#6)

end Mnemonics

/-- The text of a mnemonic: R62's table read from the mnemonic's side. -/
def mnemonicText : Mnemonic → Token
  | .nop => ['n', 'o', 'p']
  | .add => ['a', 'd', 'd']
  | .addi => ['a', 'd', 'd', 'i']
  | .andi => ['a', 'n', 'd', 'i']
  | .beq => ['b', 'e', 'q']
  | .bne => ['b', 'n', 'e']
  | .srl => ['s', 'r', 'l']
  | .sll => ['s', 'l', 'l']

theorem mnemonicOf_mnemonicText (m : Mnemonic) : mnemonicOf (mnemonicText m) = some m := by
  cases m <;> rfl

theorem mnemonicText_of_mem_mnemonicTable : ∀ p ∈ mnemonicTable, p.1 = mnemonicText p.2 := by decide

theorem mnemonicOf_eq_some {t : Token} {m : Mnemonic} : mnemonicOf t = some m ↔ t = mnemonicText m := by
  constructor
  · intro h
    obtain ⟨_, _, htable, -⟩ := List.lookup_eq_some_iff.mp h
    exact mnemonicText_of_mem_mnemonicTable (t, m) (by simp [htable])
  · rintro rfl
    exact mnemonicOf_mnemonicText m

theorem mnemonicOf_eq_none {t : Token} : mnemonicOf t = none ↔ t ∉ mnemonicTable.map Prod.fst := by
  rw [mnemonicOf, List.lookup_eq_none_iff]
  simp only [bne_iff_ne, List.mem_map, not_exists, not_and]
  exact forall₂_congr fun _ _ => ne_comm

theorem exists_mnemonic_iff {P : Mnemonic → Prop} :
    (∃ m, P m) ↔ P .nop ∨ P .add ∨ P .addi ∨ P .andi ∨ P .beq ∨ P .bne ∨ P .srl ∨ P .sll := by
  constructor
  · rintro ⟨m, h⟩
    cases m <;> simp [h]
  · rintro (h | h | h | h | h | h | h | h) <;> exact ⟨_, h⟩

/-! Lines. -/

section Lines
variable {n : RegNumbering} {labels : List (Option Token)} {slot : Nat} {l : SourceLine} {m : Mnemonic}

theorem encodeLine_of_no_operands (hm : mnemonicOf l.opcode = some .nop) (hargs : l.args = []) :
    encodeLine n labels slot l = .ok 0x00000000#32 := by
  simp [encodeLine, hm, hargs, arity, baseWord]

/-- Three operands on a `nop` are a ParseError on either path. -/
theorem encodeLine_of_three_operands {a1 a2 a3 : Token} (hm : mnemonicOf l.opcode = some m)
    (hargs : l.args = [a1, a2, a3]) : encodeLine n labels slot l = encodeThree n labels slot m a1 a2 a3 := by
  cases m <;> simp [encodeLine, hm, hargs, arity, encodeThree]

theorem encodeLine_of_wrong_count (hm : mnemonicOf l.opcode = some m) (hargs : l.args.length ≠ arity m) :
    encodeLine n labels slot l = .error .parseError := by
  simp [encodeLine, hm, hargs]

theorem operands_of_arity {args : List Token} (h : args.length = arity m) :
    m = .nop ∧ args = [] ∨ ∃ a1 a2 a3, args = [a1, a2, a3] := by
  cases m with
  | nop => exact .inl ⟨rfl, List.length_eq_zero_iff.mp h⟩
  | add | addi | andi | beq | bne | srl | sll => exact .inr (List.length_eq_three.mp h)

/-- What a line with a known opcode is: `nop` alone, three operands, or a ParseError. -/
theorem encodeLine_cases (n : RegNumbering) (labels : List (Option Token)) (slot : Nat)
    (hm : mnemonicOf l.opcode = some m) :
    (m = .nop ∧ l.args = [] ∧ encodeLine n labels slot l = .ok 0x00000000#32) ∨
    (∃ a1 a2 a3, l.args = [a1, a2, a3] ∧
      encodeLine n labels slot l = encodeThree n labels slot m a1 a2 a3) ∨
    encodeLine n labels slot l = .error .parseError := by
  by_cases hcount : l.args.length = arity m
  · obtain ⟨rfl, hargs⟩ | ⟨a1, a2, a3, hargs⟩ := operands_of_arity hcount
    · exact .inl ⟨rfl, hargs, encodeLine_of_no_operands hm hargs⟩
    · exact .inr (.inl ⟨a1, a2, a3, hargs, encodeLine_of_three_operands hm hargs⟩)
  · exact .inr (.inr (encodeLine_of_wrong_count hm hcount))

theorem encodeLine_eq_ok {w : Word} :
    encodeLine n labels slot l = .ok w ↔
      (l.opcode = mnemonicText .nop ∧ l.args = [] ∧ w = 0x00000000#32) ∨
      ∃ a1 a2 a3, l.args = [a1, a2, a3] ∧
        ∃ m, l.opcode = mnemonicText m ∧ encodeThree n labels slot m a1 a2 a3 = .ok w := by
  simp only [← mnemonicOf_eq_some]
  constructor
  · intro h
    cases hm : mnemonicOf l.opcode with
    | none => simp [encodeLine, hm] at h
    | some m =>
      obtain ⟨rfl, hargs, heq⟩ | ⟨a1, a2, a3, hargs, heq⟩ | heq := encodeLine_cases n labels slot hm
      · rw [heq] at h
        cases h
        exact .inl ⟨rfl, hargs, rfl⟩
      · exact .inr ⟨a1, a2, a3, hargs, m, rfl, heq ▸ h⟩
      · rw [heq] at h
        cases h
  · rintro (⟨hm, hargs, rfl⟩ | ⟨a1, a2, a3, hargs, m, hm, h⟩)
    · exact encodeLine_of_no_operands hm hargs
    · rwa [encodeLine_of_three_operands hm hargs]

end Lines

/-! The kinds of error of a line whose opcode is known: no operand's failure is an UnknownOpcode. -/

theorem except_bind_ne_error {ε α β : Type} {x : Except ε α} {f : α → Except ε β} {e : ε} (hx : x ≠ .error e)
    (hf : ∀ a, f a ≠ .error e) : (x >>= f) ≠ .error e := by
  cases x with
  | error e' => exact fun h => hx (by cases h; rfl)
  | ok a => exact hf a

theorem orError_ne_error {α : Type} {e e' : AsmError} (x : Option α) (h : e' ≠ e) : orError e' x ≠ .error e := by
  cases x with
  | none => exact fun heq => h (Except.error.inj heq)
  | some a => exact nofun

theorem pack_ne_error {signed : Bool} {e e' : AsmError} {w : Word} {v : Int} {width offset : Nat} (h : e' ≠ e) :
    pack signed e' w v width offset ≠ .error e := by
  unfold pack
  split_ifs
  · exact nofun
  · exact fun heq => h (Except.error.inj heq)

/-- Three operands are read before a field is packed, and each step has kinds of its own. -/
theorem operands_ne_error {α β γ : Type} {e e1 e2 e3 : AsmError} {x : Option α} {y : Option β} {z : Option γ}
    {f : α → β → γ → Except AsmError Word} (h1 : e1 ≠ e) (h2 : e2 ≠ e) (h3 : e3 ≠ e)
    (hf : ∀ a b c, f a b c ≠ .error e) :
    (do f (← orError e1 x) (← orError e2 y) (← orError e3 z)) ≠ .error e :=
  except_bind_ne_error (orError_ne_error x h1) fun a => except_bind_ne_error (orError_ne_error y h2) fun b =>
    except_bind_ne_error (orError_ne_error z h3) (hf a b)

theorem encodeThree_ne_unknownOpcode (n : RegNumbering) (labels : List (Option Token)) (slot : Nat) (m : Mnemonic)
    (a1 a2 a3 : Token) : encodeThree n labels slot m a1 a2 a3 ≠ .error .unknownOpcode := by
  cases m with
  | nop => exact nofun
  | add => exact operands_ne_error nofun nofun nofun fun _ _ _ => nofun
  | addi | andi | beq | bne | srl | sll =>
    exact operands_ne_error nofun nofun nofun fun _ _ _ => pack_ne_error nofun

theorem encodeLine_eq_unknownOpcode {n : RegNumbering} {labels : List (Option Token)} {slot : Nat} {l : SourceLine} :
    encodeLine n labels slot l = .error .unknownOpcode ↔ mnemonicOf l.opcode = none := by
  cases hm : mnemonicOf l.opcode with
  | none => simp [encodeLine, hm]
  | some m =>
    refine iff_of_false ?_ nofun
    obtain ⟨-, -, heq⟩ | ⟨a1, a2, a3, -, heq⟩ | heq := encodeLine_cases n labels slot hm <;> rw [heq]
    · exact nofun
    · exact encodeThree_ne_unknownOpcode n labels slot m a1 a2 a3
    · exact nofun

/-- Settles O48: `nop` alone, or three operands under a mnemonic's text, of which each has its own encoding; the opcode
is unknown exactly if no entry of R62's table has its text. -/
theorem assemblerAgreesWithEncoder : Obligations.AssemblerAgreesWithEncoder := by
  intro n labels slot l w
  refine ⟨?_, ?_⟩
  · rw [encodeLine_eq_ok]
    simp only [exists_mnemonic_iff, mnemonicText, encodeThree_nop_ne_ok, and_false, false_or, encodeThree_add_eq_ok,
      encodeThree_addi_eq_ok, encodeThree_andi_eq_ok, encodeThree_beq_eq_ok, encodeThree_bne_eq_ok,
      encodeThree_srl_eq_ok, encodeThree_sll_eq_ok]
  · exact encodeLine_eq_unknownOpcode.trans mnemonicOf_eq_none

end Sys2Proof.Machine

/-! SUPPORT. Proofs about whole programs (R73, R74, R77): each line's result stands at the line's place up to the first
unknown opcode, and nothing stands after it. -/

namespace Sys2Proof.Machine

theorem allWords_eq_some {rs : List (Except AsmError Word)} {words : List Word} :
    allWords rs = some words ↔ rs = words.map .ok := by
  induction rs generalizing words with
  | nil => cases words <;> simp [allWords]
  | cons r rs ih =>
    cases r with
    | error e => cases words <;> simp [allWords]
    | ok w => cases words <;> simp [allWords, ih, and_comm]

section Results
variable {p : AsmParams} {labels : List (Option Token)} {slot : Nat} {line : List Char} {lines : List (List Char)}

theorem assembleFrom_cons_unknown (h : assembleLine p labels slot line = .error .unknownOpcode) :
    assembleFrom p labels slot (line :: lines) = [.error .unknownOpcode] := by
  simp [assembleFrom, h]

theorem assembleFrom_cons_known (h : assembleLine p labels slot line ≠ .error .unknownOpcode) :
    assembleFrom p labels slot (line :: lines) =
      assembleLine p labels slot line :: assembleFrom p labels (slot + 1) lines := by
  rw [assembleFrom]
  split
  · exact absurd ‹_› h
  · rfl

/-- With no unknown opcode before it, a line has its own result. -/
theorem assembleFrom_getElem?_of_known {k : Nat} (hline : lines[k]? = some line)
    (hknown : ∀ j line', j < k → lines[j]? = some line' →
      assembleLine p labels (slot + j) line' ≠ .error .unknownOpcode) :
    (assembleFrom p labels slot lines)[k]? = some (assembleLine p labels (slot + k) line) := by
  induction lines generalizing slot k with
  | nil => cases hline
  | cons first rest ih =>
    cases k with
    | zero =>
      obtain rfl : first = line := Option.some.inj hline
      by_cases h : assembleLine p labels slot first = .error .unknownOpcode
      · rw [assembleFrom_cons_unknown h, Nat.add_zero, h]
        rfl
      · rw [assembleFrom_cons_known h]
        rfl
    | succ k =>
      have hfirst : assembleLine p labels slot first ≠ .error .unknownOpcode :=
        hknown 0 first (Nat.zero_lt_succ k) rfl
      rw [assembleFrom_cons_known hfirst, List.getElem?_cons_succ, ih hline, Nat.add_right_comm, Nat.add_assoc]
      intro j line' hj hl
      have := hknown (j + 1) line' (Nat.succ_lt_succ hj) hl
      rwa [Nat.add_right_comm, Nat.add_assoc]

/-- After an unknown opcode no line has a result (R73). -/
theorem assembleFrom_getElem?_of_unknown {j k : Nat} (hjk : j < k) (hline : lines[j]? = some line)
    (h : assembleLine p labels (slot + j) line = .error .unknownOpcode) :
    (assembleFrom p labels slot lines)[k]? = none := by
  induction lines generalizing slot j k with
  | nil => rfl
  | cons first rest ih =>
    obtain ⟨k, rfl⟩ := Nat.exists_eq_succ_of_ne_zero (Nat.ne_zero_of_lt hjk)
    by_cases hfirst : assembleLine p labels slot first = .error .unknownOpcode
    · rw [assembleFrom_cons_unknown hfirst]
      rfl
    · rw [assembleFrom_cons_known hfirst, List.getElem?_cons_succ]
      cases j with
      | zero =>
        obtain rfl : first = line := Option.some.inj hline
        exact absurd h hfirst
      | succ j =>
        refine ih (Nat.lt_of_succ_lt_succ hjk) hline ?_
        rwa [Nat.add_right_comm, Nat.add_assoc]

/-- If every result is a word, there is one for each line, and it is the line's own. -/
theorem assembleLine_of_assembleFrom {words : List Word} (h : assembleFrom p labels slot lines = words.map .ok) :
    words.length = lines.length ∧ ∀ k line, lines[k]? = some line →
      ∃ w, words[k]? = some w ∧ assembleLine p labels (slot + k) line = .ok w := by
  induction lines generalizing slot words with
  | nil =>
    obtain rfl : words = [] := List.map_eq_nil_iff.mp h.symm
    exact ⟨rfl, fun k line hline => by cases hline⟩
  | cons first rest ih =>
    by_cases hfirst : assembleLine p labels slot first = .error .unknownOpcode
    · rw [assembleFrom_cons_unknown hfirst] at h
      cases words <;> cases h
    · rw [assembleFrom_cons_known hfirst] at h
      cases words with
      | nil => cases h
      | cons w ws =>
        obtain ⟨hw, hws⟩ := List.cons.inj h
        obtain ⟨hlen, hrest⟩ := ih hws
        refine ⟨congrArg Nat.succ hlen, fun k line hline => ?_⟩
        cases k with
        | zero =>
          obtain rfl : first = line := Option.some.inj hline
          exact ⟨w, rfl, hw⟩
        | succ k =>
          have := hrest k line hline
          rwa [Nat.add_right_comm, Nat.add_assoc] at this

end Results

/-- The words of an assembled program, line by line. -/
theorem assemble_eq_some {p : AsmParams} {lines : List (List Char)} {words : List Word}
    (h : assemble p lines = some words) : words.length = lines.length ∧ ∀ k line, lines[k]? = some line →
      ∃ w, words[k]? = some w ∧ assembleLine p (labelsOf p lines) k line = .ok w := by
  have := assembleLine_of_assembleFrom (allWords_eq_some.mp h)
  simpa only [Nat.zero_add] using this

/-- Settles O50: a program that assembles has a word for each line, so a failing line leaves it no word at all. -/
theorem assemblyIsAllOrNothing : Obligations.AssemblyIsAllOrNothing := by
  refine fun p lines => ⟨fun _ => assemble_eq_some, fun k line e hline herror => ?_⟩
  cases h : assemble p lines with
  | none => rfl
  | some words =>
    obtain ⟨w, -, hok⟩ := (assemble_eq_some h).2 k line hline
    rw [herror] at hok
    cases hok

/-! Every word of an assembled program is the encoder's. -/

theorem encode_of_encodeThree {n : RegNumbering} {labels : List (Option Token)} {slot : Nat} {m : Mnemonic}
    {a1 a2 a3 : Token} {w : Word} (h : encodeThree n labels slot m a1 a2 a3 = .ok w) : ∃ i, w = encode i := by
  cases m with
  | nop => cases h
  | add =>
    obtain ⟨_, _, _, -, -, -, hw⟩ := encodeThree_add_eq_ok.mp h
    exact ⟨_, hw⟩
  | addi | andi | beq | bne | srl | sll =>
    simp only [encodeThree_addi_eq_ok, encodeThree_andi_eq_ok, encodeThree_beq_eq_ok, encodeThree_bne_eq_ok,
      encodeThree_srl_eq_ok, encodeThree_sll_eq_ok] at h
    obtain ⟨_, _, _, -, -, -, -, -, hw⟩ := h
    exact ⟨_, hw⟩

theorem encode_of_assembleLine {p : AsmParams} {labels : List (Option Token)} {slot : Nat} {line : List Char}
    {w : Word} (h : assembleLine p labels slot line = .ok w) : ∃ i, w = encode i := by
  unfold assembleLine at h
  split at h
  · cases h
  · obtain ⟨-, -, hw⟩ | ⟨_, _, _, -, _, -, h3⟩ := encodeLine_eq_ok.mp h
    · exact ⟨.nop, hw⟩
    · exact encode_of_encodeThree h3

/-- The one ill-formed instruction has the word of `nop` (R59), so every word of the encoder is recognised. -/
theorem decode_encode_recognised (i : Instr) : ∃ j, decode (encode i) = .instr j := by
  by_cases hwf : i.wellFormed = true
  · exact ⟨i, decode_encode hwf⟩
  · refine ⟨.nop, decode_eq_nop_iff.mpr ?_⟩
    cases i with
    | sll => exact not_ne_iff.mp (mt wellFormed_sll_iff.mpr hwf)
    | nop | add | srl | addi | andi | beq | bne => exact absurd rfl hwf

/-- Settles O49: each word is some line's, a line's word is the encoder's, and the decoder recognises those. -/
theorem assembledWordsAreRecognised : Obligations.AssembledWordsAreRecognised := by
  intro p lines words w h hw
  obtain ⟨hlen, hlines⟩ := assemble_eq_some h
  obtain ⟨k, hk, rfl⟩ := List.mem_iff_getElem.mp hw
  obtain ⟨w, hget, hline⟩ := hlines k _ (List.getElem?_eq_getElem (hlen ▸ hk))
  obtain rfl : words[k] = w := Option.some.inj ((List.getElem?_eq_getElem hk).symm.trans hget)
  obtain ⟨i, hi⟩ := encode_of_assembleLine hline
  rw [hi]
  exact decode_encode_recognised i

/-- A line has a report exactly if it has a result, and the report is that of the result. -/
theorem reportsFrom_getElem? {c : Config} {p : AsmParams} {slot k : Nat} {line : List Char} {lines : List (List Char)}
    {rs : List (Except AsmError Word)} (hline : lines[k]? = some line) :
    (reportsFrom c p slot lines rs)[k]? = rs[k]?.map (reportLine c p (slot + k) line) := by
  induction lines generalizing slot k rs with
  | nil => cases hline
  | cons first rest ih =>
    cases rs with
    | nil => rfl
    | cons r rs =>
      cases k with
      | zero =>
        obtain rfl : first = line := Option.some.inj hline
        rfl
      | succ k =>
        rw [reportsFrom, List.getElem?_cons_succ, List.getElem?_cons_succ, ih hline, Nat.add_right_comm, Nat.add_assoc]

/-- Settles O52: a line's report is that of its result, which is there up to the first unknown opcode and not after. -/
theorem diagnosticsReportEveryLine : Obligations.DiagnosticsReportEveryLine := by
  intro c p lines k line hline
  have hreport := reportsFrom_getElem? (c := c) (p := p) (slot := 0) (rs := assembleEach p lines) hline
  rw [← assemblerReports, Nat.zero_add] at hreport
  refine ⟨fun hknown => ?_, ?_⟩
  · have hresult : (assembleEach p lines)[k]? = some (assembleLine p (labelsOf p lines) k line) := by
      have := assembleFrom_getElem?_of_known (p := p) (labels := labelsOf p lines) (slot := 0) hline
        (by simpa only [Nat.zero_add] using hknown)
      rwa [Nat.zero_add] at this
    rw [hresult] at hreport
    exact ⟨fun w hw => by rw [hreport, hw]; rfl, fun e he => by rw [hreport, he]; rfl⟩
  · rintro ⟨j, line', hj, hline', hunknown⟩
    rw [← Nat.zero_add j] at hunknown
    rw [hreport, assembleEach, assembleFrom_getElem?_of_unknown hj hline' hunknown]
    rfl

end Sys2Proof.Machine
